-- ==== Sys2Proof/Word.lean ====
section
/-! DEFINITION. The Word: what a memory cell and ACC hold. -/

namespace Sys2Proof

/-- The signed integer `v` is a Word of `width` bits, two's complement: `-2^(W-1) <= v <= 2^(W-1) - 1`
(spec/00_scope.md section 5, "Word"). A cell, ACC, an opcode code and an operand are integers of this range, for the
machine's WORD_WIDTH (R7, R10); that they stay in it is part of `StoreInv` and `RunInv` (log 5). -/
abbrev IsWord (width : Nat) (v : Int) : Prop := -2 ^ (width - 1) ≤ v ∧ v ≤ 2 ^ (width - 1) - 1

end Sys2Proof
end

