-- ==== Sys2Proof/Config.lean ====
section
/-! DEFINITION. The parameters of R7 (fixed for one machine) and the model's one free value. -/

namespace Sys2Proof

/-- The nine opcodes (R33: "one of {HALT, LOAD, ADD, STORE, PRINT, SUB, JMP, JZ, NOP}"), in the spec's order. -/
inductive Opcode where
  | halt
  | load
  | add
  | store
  | print
  | sub
  | jmp
  | jz
  | nop
  deriving DecidableEq, Repr

/-- OPCODE_CODE (R7, R41): one numeric code for each opcode; injectivity is `OpcodeCodes.Injective`. -/
structure OpcodeCodes where
  halt : Int
  load : Int
  add : Int
  store : Int
  print : Int
  sub : Int
  jmp : Int
  jz : Int
  nop : Int
  deriving DecidableEq, Repr

/-- OVERFLOW_POLICY (R7, R65). -/
inductive OverflowPolicy where
  /-- ADD and SUB wrap modulo 2^WORD_WIDTH (the default). -/
  | wrap
  /-- A result that is no Word has no meaning in the model: refusal `arithmeticOverflow`. -/
  | fault
  deriving DecidableEq, Repr

/-- One program of the loader's catalog (R38): its cells from address 0 and its labels. -/
structure ExampleProgram where
  cells : List Int
  labels : List (Nat × String)
  deriving DecidableEq, Repr

/-- The fixed catalog `suma`, `resta`, `bucle` (R38). -/
structure ExampleCatalog where
  suma : ExampleProgram
  resta : ExampleProgram
  bucle : ExampleProgram
  deriving DecidableEq, Repr

/-- The implementation parameters of R7. -/
structure Config where
  /-- WORD_WIDTH: the width in bits of a cell and of ACC. -/
  wordWidth : Nat
  /-- MEM_SIZE: valid addresses are `[0, memSize)`. -/
  memSize : Nat
  /-- MAX_STEPS: the step guard. -/
  maxSteps : Nat
  /-- OPCODE_CODE. -/
  codes : OpcodeCodes
  /-- OVERFLOW_POLICY. -/
  overflowPolicy : OverflowPolicy
  /-- The loader's example catalog (spec/93_implementation_defined.md section 1). -/
  examples : ExampleCatalog
  deriving DecidableEq, Repr

/-- What a step knows when it describes itself: the inputs the text of a description may depend on (R16). -/
structure StepFacts where
  opcode : Opcode
  pc : Nat
  operand : Option Nat
  /-- The cell the operand names, before execute. -/
  operandCell : Option Int
  accBefore : Int
  accAfter : Int
  zAfter : Bool
  deriving DecidableEq, Repr

/-- FREE VALUE: the text of a step's description, an opaque string on which no rule depends (R16, D23).
Log 12; safe, since nothing can be proved of its value. -/
opaque Config.descriptionText : StepFacts → String

end Sys2Proof
end

