-- ==== Sys2Proof/Machine/Alu.lean ====
section
/-! DEFINITION. The sub-block alu_integer: sum and difference (R65). The zero test is in Flags. -/

namespace Sys2Proof.Machine

/-- `wrap_W(v)`: the Word congruent to `v` modulo 2^W (spec/00_scope.md section 5). -/
def wrapWord (width : Nat) (v : Int) : Int := (v + 2 ^ (width - 1)) % 2 ^ width - 2 ^ (width - 1)

/-- The exact result brought to a Word; `none` is `Refused(ArithmeticOverflow)`, only under `fault` (R65). -/
def narrow (c : Config) (exact : Int) : Option Int :=
  match c.overflowPolicy with
  | .wrap => some (wrapWord c.wordWidth exact)
  | .fault => if IsWord c.wordWidth exact then some exact else none

/-- `add_W(x, y)` (R65). -/
def addWord (c : Config) (x y : Int) : Option Int := narrow c (x + y)

/-- `sub_W(x, y)`: `x` minus `y`, in that order (R65, R68). -/
def subWord (c : Config) (x y : Int) : Option Int := narrow c (x - y)

end Sys2Proof.Machine
end

