-- ==== Sys2Proof/Syntax.lean ====
section
/-! DEFINITION. The instructions: one constructor per row of spec/opcode_table.json. -/

namespace Sys2Proof

/-- An instruction (R40, R41). `a` is the operand cell, a whole Word used exactly as stored (R44),
read as the signed integer it is. -/
inductive Instr where
  /-- HALT, format OP (R72). -/
  | halt
  /-- LOAD a, format OP_ADDR (R63). -/
  | load (a : Int)
  /-- ADD a, format OP_ADDR (R67). -/
  | add (a : Int)
  /-- STORE a, format OP_ADDR (R64). -/
  | store (a : Int)
  /-- PRINT, format OP (R73). -/
  | print
  /-- SUB a, format OP_ADDR (R68). -/
  | sub (a : Int)
  /-- JMP a, format OP_ADDR (R69). -/
  | jmp (a : Int)
  /-- JZ a, format OP_ADDR (R70). -/
  | jz (a : Int)
  /-- NOP, format OP (R74). -/
  | nop
  deriving DecidableEq, Repr

end Sys2Proof
end

