-- ==== Sys2Proof/Machine/Opcodes.lean ====
section
/-! DEFINITION. The fixed opcode table: mnemonic, code, arity and length (R41, R43, R47), and an instruction's opcode
and operand. -/

namespace Sys2Proof

/-- The nine opcodes in the order of the spec's list (R41). -/
def Opcode.all : List Opcode := [.halt, .load, .add, .store, .print, .sub, .jmp, .jz, .nop]

/-- OPCODE_CODE(op) (R41). -/
def OpcodeCodes.code (c : OpcodeCodes) : Opcode → Int
  | .halt => c.halt
  | .load => c.load
  | .add => c.add
  | .store => c.store
  | .print => c.print
  | .sub => c.sub
  | .jmp => c.jmp
  | .jz => c.jz
  | .nop => c.nop

/-- The default codes 0 to 8 in listing order (R41). DESIGN CHOICE (the spec's own, D4): log 4. -/
def OpcodeCodes.listed : OpcodeCodes where
  halt := 0
  load := 1
  add := 2
  store := 3
  print := 4
  sub := 5
  jmp := 6
  jz := 7
  nop := 8

/-- `arity(op)`: 0 for HALT, PRINT and NOP, 1 for the others (R43). -/
def Opcode.arity : Opcode → Nat
  | .halt => 0
  | .load => 1
  | .add => 1
  | .store => 1
  | .print => 0
  | .sub => 1
  | .jmp => 1
  | .jz => 1
  | .nop => 0

/-- The length of an instruction, `1 + arity(op)` cells (R43, R46). -/
def Opcode.length (op : Opcode) : Nat := 1 + op.arity

/-- The nine spellings (R47). -/
def Opcode.mnemonic : Opcode → String
  | .halt => "HALT"
  | .load => "LOAD"
  | .add => "ADD"
  | .store => "STORE"
  | .print => "PRINT"
  | .sub => "SUB"
  | .jmp => "JMP"
  | .jz => "JZ"
  | .nop => "NOP"

/-- `encode(mnemonic)`: case-sensitive, exact match; `none` is `UnrecognizedMnemonic` (R47). -/
def Opcode.ofMnemonic (text : String) : Option Opcode :=
  Opcode.all.find? fun op => op.mnemonic == text

/-- The opcode of an instruction. -/
def Instr.opcode : Instr → Opcode
  | .halt => .halt
  | .load _ => .load
  | .add _ => .add
  | .store _ => .store
  | .print => .print
  | .sub _ => .sub
  | .jmp _ => .jmp
  | .jz _ => .jz
  | .nop => .nop

/-- The operand cell of an instruction, absent for arity 0 (R40). -/
def Instr.operand : Instr → Option Int
  | .halt => none
  | .load a => some a
  | .add a => some a
  | .store a => some a
  | .print => none
  | .sub a => some a
  | .jmp a => some a
  | .jz a => some a
  | .nop => none

end Sys2Proof
end

