-- ==== Sys2Proof/Machine/Reference.lean ====
section
/-! DEFINITION. The reference configuration of spec/95_test_vectors.md and the reconstructed example programs. -/

namespace Sys2Proof

/-- P1 suma (spec/95_test_vectors.md section 3; D30, log 21). -/
def ExampleProgram.suma : ExampleProgram where
  cells := [1, 8, 2, 9, 3, 10, 4, 0, 2, 2, 0]
  labels := [(8, "a"), (9, "b"), (10, "result")]

/-- P2 resta. The labels are the model's DESIGN CHOICE (the spec gives none): log 21. -/
def ExampleProgram.resta : ExampleProgram where
  cells := [1, 6, 5, 7, 4, 0, 10, 5]
  labels := [(6, "a"), (7, "b")]

/-- P3 bucle. The labels are the names the listing's comments use, a DESIGN CHOICE: log 21. -/
def ExampleProgram.bucle : ExampleProgram where
  cells := [1, 12, 4, 7, 11, 5, 13, 3, 12, 6, 2, 0, 3, 1]
  labels := [(12, "n"), (13, "one")]

/-- The default catalog: this spec's reconstructions (R38, D30). -/
def ExampleCatalog.reconstructed : ExampleCatalog where
  suma := .suma
  resta := .resta
  bucle := .bucle

/-- The reference configuration: WORD_WIDTH = 32, MEM_SIZE = 32, MAX_STEPS = 100, wrap, codes
0 to 8 (R7, D1 to D5).
DESIGN CHOICE (the spec's own): log 3, log 4, log 5, log 6. -/
def Config.reference : Config where
  wordWidth := 32
  memSize := 32
  maxSteps := 100
  codes := .listed
  overflowPolicy := .wrap
  examples := .reconstructed

end Sys2Proof
end

