-- ==== Sys2Proof/Machine/AddressDecoder.lean ====
section
/-! DEFINITION. The sub-block memory_address_decoder (R2, R25). -/

namespace Sys2Proof.Machine

/-- `in_range(a)`: true exactly when `0 <= a < MEM_SIZE`, for any integer `a` (R25). -/
def inRange (memSize : Nat) (a : Int) : Bool :=
  decide (0 ≤ a) && decide (a < memSize)

/-- The cell an address selects, if it is in range. -/
def cellAddress (memSize : Nat) (a : Int) : Option Nat :=
  if inRange memSize a then some a.toNat else none

end Sys2Proof.Machine
end

