-- ==== Sys2Proof/WellFormed.lean ====
section
/-! DEFINITION. The checks on parameters and on instructions. -/

namespace Sys2Proof

/-- OPCODE_CODE is injective (R7: "an injective map into Word"). -/
abbrev OpcodeCodes.Injective (c : OpcodeCodes) : Prop := (Opcode.all.map c.code).Nodup

/-- Every opcode's code is a Word (R7: a map "into Word"). -/
abbrev OpcodeCodes.AreWords (width : Nat) (c : OpcodeCodes) : Prop := ∀ op ∈ Opcode.all, IsWord width (c.code op)

/-- An example's cells are Words and its labels lie on its own cells (R38: labels of "its operand cells"). -/
abbrev ExampleProgram.WellFormed (width : Nat) (e : ExampleProgram) : Prop :=
  (∀ v ∈ e.cells, IsWord width v) ∧ ∀ l ∈ e.labels, l.1 < e.cells.length

/-- The conditions R7 and R38 put on the parameters; a Word has at least one bit. -/
abbrev Config.WellFormed (c : Config) : Prop :=
  1 ≤ c.wordWidth ∧ 1 ≤ c.memSize ∧ 1 ≤ c.maxSteps ∧ c.codes.Injective ∧ c.codes.AreWords c.wordWidth ∧
    c.examples.suma.WellFormed c.wordWidth ∧ c.examples.resta.WellFormed c.wordWidth ∧
    c.examples.bucle.WellFormed c.wordWidth

/-- The operand, if there is one, is a Word: the instruction can stand in cells (R44). -/
abbrev Instr.Encodable (width : Nat) (i : Instr) : Prop := (i.operand.all fun a => decide (IsWord width a)) = true

/-- The operand address, if there is one, is in range: the check every arity-1 opcode makes before it executes (R54).
It is a condition of executing normally, not of decoding: an operand cell may hold any Word (R45). -/
abbrev Instr.WellFormed (memSize : Nat) (i : Instr) : Prop :=
  (i.operand.all fun a => Machine.inRange memSize a) = true

end Sys2Proof
end

