-- ==== Sys2Proof/Decode.lean ====
section
/-! DEFINITION. The sub-block instruction_decoder (R2, R40 to R46) and the encoder. Cells are listed lowest address
first. -/

namespace Sys2Proof

/-- Why no instruction can be read from a list of cells. -/
inductive DecodeError where
  /-- There is no opcode cell. -/
  | noOpcodeCell
  /-- The opcode cell holds a Word outside the defined set: `Unknown(code)` (R42). -/
  | unknownOpcode (code : Int)
  /-- The opcode has arity 1 and there is no operand cell (R53). -/
  | noOperandCell (op : Opcode)
  deriving DecidableEq, Repr

/-- `decode(code)`: the opcode whose code is the whole cell, `none` for `Unknown` (R42). -/
def decodeOpcode (codes : OpcodeCodes) (code : Int) : Option Opcode :=
  Opcode.all.find? fun op => codes.code op == code

/-- The operand of a 2-cell instruction is the whole next cell (R44). -/
def takeOperand (op : Opcode) (build : Int → Instr) (cells : List Int) :
    Except DecodeError (Instr × List Int) :=
  match cells with
  | [] => .error (.noOperandCell op)
  | a :: rest => .ok (build a, rest)

/-- The instruction of a decoded opcode, with the cells after its opcode cell (R40). -/
def assemble (op : Opcode) (cells : List Int) : Except DecodeError (Instr × List Int) :=
  match op with
  | .halt => .ok (.halt, cells)
  | .load => takeOperand .load Instr.load cells
  | .add => takeOperand .add Instr.add cells
  | .store => takeOperand .store Instr.store cells
  | .print => .ok (.print, cells)
  | .sub => takeOperand .sub Instr.sub cells
  | .jmp => takeOperand .jmp Instr.jmp cells
  | .jz => takeOperand .jz Instr.jz cells
  | .nop => .ok (.nop, cells)

/-- The instruction at the start of a list of cells, and the cells after it. The length is fixed by the first cell
alone (R46). -/
def decode (codes : OpcodeCodes) (cells : List Int) : Except DecodeError (Instr × List Int) :=
  match cells with
  | [] => .error .noOpcodeCell
  | code :: rest =>
    match decodeOpcode codes code with
    | none => .error (.unknownOpcode code)
    | some op => assemble op rest

/-- The cells of an instruction: the opcode's code, then the operand address if there is one (R40). -/
def encode (codes : OpcodeCodes) (i : Instr) : List Int :=
  codes.code i.opcode :: i.operand.toList

/-- The two cells of an instruction word numbered as spec/opcode_table.json numbers it, for cells of `width` bits: bits
W-1..0 are the opcode cell, bits 2W-1..W the operand cell; every bit from `nbits` up is 0. -/
def tableCells (width nbits w : Nat) : List Int :=
  [Machine.wrapWord width ↑(w % 2 ^ nbits), Machine.wrapWord width ↑(w % 2 ^ nbits / 2 ^ width)]

/-- The instruction the decoder reads from a word of spec/opcode_table.json, whose cells have 32 bits, under the table's
codes. -/
def decodeTableWord (nbits w : Nat) : Option Instr :=
  match decode .listed (tableCells 32 nbits w) with
  | .ok (i, _) => some i
  | .error _ => none

end Sys2Proof
end

