-- ==== Sys2Proof/Machine/State.lean ====
section
/-! DEFINITION. The state of the machine, all of it, as plain data; its faults and refusals; the state after reset. -/

namespace Sys2Proof.Machine

/-- The kind of an `OutOfRangeAddress` (R76, D29). -/
inductive AddressKind where
  | fetch
  | operandCell
  | operandAddress
  deriving DecidableEq, Repr

/-- The reason of a fatal abort; `OutOfRangeAddress` is the only one (R12, R76). The failing address is any integer. -/
inductive AbortReason where
  | outOfRangeAddress (kind : AddressKind) (addr : Int)
  deriving DecidableEq, Repr

/-- The run state (R12). -/
inductive RunState where
  | running
  | halted
  | abortedFatal (reason : AbortReason)
  | stoppedUnknownOpcode
  | guardExpired
  deriving DecidableEq, Repr

/-- The opcode field of a StepRecord (R16). -/
inductive RecordedOpcode where
  | known (op : Opcode)
  | unknown (code : Int)
  deriving DecidableEq, Repr

/-- A StepRecord (R16). -/
structure StepRecord where
  /-- PC at the start of the step. -/
  pc : Nat
  opcode : RecordedOpcode
  /-- The operand address, or absent. -/
  operand : Option Nat
  /-- ACC at the end of the step. -/
  acc : Int
  /-- Z at the end of the step. -/
  z : Bool
  description : String
  deriving DecidableEq, Repr

/-- The cells of the Memory Store (R14): address and Word (a signed integer, `IsWord`: log 5), addresses strictly rising,
no cell listed that holds what an unlisted address reads as (`Memory.Wf`). The unit is the cell: there are no bytes
(R24; log 1). -/
abbrev Memory := List (Nat × Int)

/-- The labels (R17): address and text, addresses strictly rising. -/
abbrev Labels := List (Nat × String)

/-- The whole state: the CORE's (R8 to R16), the host's that the spec names (R17, R18) and the machine's parameters
(R7), which nothing writes. -/
structure State where
  /-- The parameters of R7 (the model's own field: log 2). -/
  config : Config
  /-- R12. -/
  runState : RunState
  /-- PC (R9), a natural number. -/
  pc : Nat
  /-- ACC (R10), one Word of WORD_WIDTH bits. -/
  acc : Int
  /-- Z (R11). -/
  z : Bool
  /-- The step counter (R13). -/
  stepCount : Nat
  /-- The memory (R14). -/
  mem : Memory
  /-- The PRINT output stream, oldest first (R15). -/
  output : List Int
  /-- The step trace, oldest first (R16). -/
  trace : List StepRecord
  /-- The labels (R17). -/
  labels : Labels
  /-- The loader's write cursor (R18). -/
  cursor : Nat
  deriving DecidableEq, Repr

/-- Why the machine stops. -/
inductive Fault where
  /-- Raised by `step` when the run state is not Running: no step is taken then (R12, R49). Safe. -/
  | notRunning (status : RunState)
  deriving DecidableEq, Repr

/-- Why the model gives no meaning. -/
inductive Refusal where
  /-- Raised by an arm of `exec` whose instruction has no meaning yet; no arm is left in this model. Safe. -/
  | notModelled (mnemonic : String)
  /-- Raised by ADD and SUB under OVERFLOW_POLICY = fault when the exact result is no Word: the spec's own
  `Refused(ArithmeticOverflow)` (R65). Safe. -/
  | arithmeticOverflow
  deriving DecidableEq, Repr

/-- The state of a machine with parameters `c` after session reset (R20, R93) and run-start reset (R21, R94). -/
def State.initial (c : Config) : State where
  config := c
  runState := .running
  pc := 0
  acc := 0
  z := false
  stepCount := 0
  mem := []
  output := []
  trace := []
  labels := []
  cursor := 0

/-- The machine right after reset, in the reference configuration (R20, R21; log 3, log 10). -/
def State.reset : State := State.initial Config.reference

end Sys2Proof.Machine
end

