-- ==== Sys2Proof/Machine/Memory.lean ====
section
/-! DEFINITION. The Memory Store's cells and labels as canonical lists (R14, R17, R26, R27). -/

namespace Sys2Proof.Machine

/-- What a cell that is not listed reads as: memory is zero-initialized (R20). -/
def Memory.unlisted : Int := 0

/-- The canonical form: addresses strictly rising, no listed cell equal to what an unlisted one reads as. -/
abbrev Memory.Wf (m : Memory) : Prop :=
  (m.map Prod.fst).Pairwise (· < ·) ∧ ∀ c ∈ m, c.2 ≠ Memory.unlisted

/-- The Word held by cell `a` (R26). -/
def Memory.read (m : Memory) (a : Nat) : Int :=
  match m with
  | [] => Memory.unlisted
  | (b, w) :: rest => if a = b then w else Memory.read rest a

/-- The list without address `a`: the cell reads as an unlisted one. -/
def Memory.erase (m : Memory) (a : Nat) : Memory := m.filter fun c => c.1 != a

/-- Cell `a` listed with `v`, at its place in the order of addresses. -/
def Memory.insert (m : Memory) (a : Nat) (v : Int) : Memory :=
  match m with
  | [] => [(a, v)]
  | c :: rest => if a < c.1 then (a, v) :: c :: rest else c :: Memory.insert rest a v

/-- Sets cell `a` to `v` and changes no other cell (R27); a cell that becomes what an unlisted one reads as is no longer
listed. -/
def Memory.write (m : Memory) (a : Nat) (v : Int) : Memory :=
  if v = Memory.unlisted then Memory.erase m a else Memory.insert (Memory.erase m a) a v

/-- Labels in canonical form: addresses strictly rising. -/
abbrev Labels.Wf (l : Labels) : Prop := (l.map Prod.fst).Pairwise (· < ·)

/-- The label of address `a`, if it has one (R17). -/
def Labels.find (l : Labels) (a : Nat) : Option String :=
  match l with
  | [] => none
  | (b, t) :: rest => if a = b then some t else Labels.find rest a

/-- Attaches or replaces the label of address `a` (R37). -/
def Labels.set (l : Labels) (a : Nat) (name : String) : Labels :=
  match l with
  | [] => [(a, name)]
  | (b, t) :: rest =>
    if a < b then (a, name) :: (b, t) :: rest
    else if a = b then (a, name) :: rest
    else (b, t) :: Labels.set rest a name

end Sys2Proof.Machine
end

