-- ==== Sys2Proof/Machine/Ops.lean ====
section
/-! DEFINITION. The named operations over registers, memory, outputs and the run state.
There is no trap entry and no return from trap (R82, R83): what another machine would trap on ends the run, by `abort` or
`stopUnknown`, and a new run starts by `startRun`. -/

namespace Sys2Proof.Machine

/-- How a meaning and a step answer. -/
abbrev Result := Host.Outcome State Fault Refusal

/-- The Word in cell `a`. -/
def readCell (s : State) (a : Nat) : Int := Memory.read s.mem a

/-- Cell `a` set to `v`. -/
def writeCell (a : Nat) (v : Int) (s : State) : State := { s with mem := Memory.write s.mem a v }

/-- `MemRead(a, 1)`; `none` where it raises `OutOfRangeAddress(a)` (R26). -/
def memRead (s : State) (a : Int) : Option Int :=
  (cellAddress s.config.memSize a).map (readCell s)

/-- `MemWrite(a, 1, v)`; `none` where it raises `OutOfRangeAddress(a)` (R27). -/
def memWrite (a : Int) (v : Int) (s : State) : Option State :=
  (cellAddress s.config.memSize a).map fun n => writeCell n v s

/-- The default PC advance, `PC <- p + 1 + arity(op)`, on natural numbers: it never wraps (R56, D6). -/
def advance (op : Opcode) (s : State) : State := { s with pc := s.pc + op.length }

/-- `PC <- a`. -/
def jumpTo (a : Nat) (s : State) : State := { s with pc := a }

/-- `out(v)`: appends `v` to the PRINT output stream (R15). -/
def out (v : Int) (s : State) : State := { s with output := s.output ++ [v] }

/-- `emit(r)`: appends `r` to the trace (R16), and the step counter counts it (R59). -/
def emit (r : StepRecord) (s : State) : State :=
  { s with trace := s.trace ++ [r], stepCount := s.stepCount + 1 }

/-- HALT's effect: the run state becomes Halted (R72). -/
def haltRun (s : State) : State := { s with runState := .halted }

/-- The record of a step that executed `op` at `before` and left ACC, Z and the rest as in `after` (R16, R57). -/
def recordOf (op : Opcode) (operand : Option Nat) (before after : State) : StepRecord where
  pc := before.pc
  opcode := .known op
  operand := operand
  acc := after.acc
  z := after.z
  description := Config.descriptionText
    { opcode := op, pc := before.pc, operand := operand, operandCell := operand.map (readCell before),
      accBefore := before.acc, accAfter := after.acc, zAfter := after.z }

/-- The end of a step that executed: its record is emitted and counted (R57, R59). -/
def retire (op : Opcode) (operand : Option Nat) (before after : State) : State :=
  emit (recordOf op operand before after) after

/-- `raise OutOfRangeAddress(kind, addr)`: the run state becomes AbortedFatal; nothing else is written, no record is
emitted and nothing is counted (R58). -/
def abort (kind : AddressKind) (addr : Int) (s : State) : State :=
  { s with runState := .abortedFatal (.outOfRangeAddress kind addr) }

/-- The record of an unknown opcode (R52, D10). -/
def unknownRecord (code : Int) (s : State) : StepRecord where
  pc := s.pc
  opcode := .unknown code
  operand := none
  acc := s.acc
  z := s.z
  description := "unknown instruction"

/-- The graceful stop on an unknown opcode: one record, counted, and the run state (R52). -/
def stopUnknown (code : Int) (s : State) : State :=
  { emit (unknownRecord code s) s with runState := .stoppedUnknownOpcode }

/-- Guard expiry: the run state only (R61). -/
def expireGuard (s : State) : State := { s with runState := .guardExpired }

/-- The run-start reset of the registers; memory and labels are not touched (R94). -/
def startRun (s : State) : State :=
  { s with runState := .running, pc := 0, acc := 0, z := false, stepCount := 0, output := [], trace := [] }

end Sys2Proof.Machine
end

