-- ==== Sys2Proof/Machine/Flags.lean ====
section
/-! DEFINITION. The one flag, Z: recomputed from the value written to ACC, by LOAD, ADD and SUB only (R11, R66). -/

namespace Sys2Proof.Machine

/-- `zero(v)` (R66). -/
def zero (v : Int) : Bool := decide (v = 0)

/-- `ACC <- v; Z <- (ACC == 0)` (R11, R66). -/
def writeAcc (v : Int) (s : State) : State := { s with acc := v, z := zero v }

end Sys2Proof.Machine
end

