-- ==== Sys2Proof/Machine/Operands.lean ====
section
/-! DEFINITION. The one operand form: a direct address, the whole operand cell (R44), checked before execute (R54). -/

namespace Sys2Proof.Machine

/-- The effective address of operand `a`: the operand itself, if it is in range (R25, R44). -/
def operandAddress (s : State) (a : Int) : Option Nat := cellAddress s.config.memSize a

/-- The operand-address check (R54): made for every arity-1 opcode before it executes; it aborts with kind
`OperandAddress` and the address if that is out of range. -/
def withOperand (a : Int) (s : State) (execute : Nat → Result) : Result :=
  match operandAddress s a with
  | some n => execute n
  | none => .next (abort .operandAddress a s)

end Sys2Proof.Machine
end

