-- ==== Sys2Proof/Machine/Arithmetic.lean ====
section
/-! DEFINITION. ADD and SUB (spec/42_arithmetic.md). -/

namespace Sys2Proof.Machine

/-- The end of ADD and SUB: the alu's result into ACC and Z, or the model-only refusal of OVERFLOW_POLICY = fault
(R65). -/
def finishArithmetic (op : Opcode) (n : Nat) (result : Option Int) (s : State) : Result :=
  match result with
  | some v => .next (retire op (some n) s (advance op (writeAcc v s)))
  | none => .refused .arithmeticOverflow

/-- ADD `a` (R67). -/
def execAdd (a : Int) (s : State) : Result :=
  withOperand a s fun n => finishArithmetic .add n (addWord s.config s.acc (readCell s n)) s

/-- SUB `a`: ACC minus the cell (R68). -/
def execSub (a : Int) (s : State) : Result :=
  withOperand a s fun n => finishArithmetic .sub n (subWord s.config s.acc (readCell s n)) s

end Sys2Proof.Machine
end

