-- ==== Sys2Proof/Machine/ControlTransfer.lean ====
section
/-! DEFINITION. JMP and JZ (spec/43_control_transfer.md). The target is the operand address itself (C5, D27; log 17). -/

namespace Sys2Proof.Machine

/-- JMP `a` (R69). -/
def execJmp (a : Int) (s : State) : Result :=
  withOperand a s fun n => .next (retire .jmp (some n) s (jumpTo n s))

/-- JZ `a`: to `a` when Z is true, else the default advance (R70). -/
def execJz (a : Int) (s : State) : Result :=
  withOperand a s fun n => .next (retire .jz (some n) s (if s.z then jumpTo n s else advance .jz s))

end Sys2Proof.Machine
end

