-- ==== Sys2Proof/Machine/DataTransfer.lean ====
section
/-! DEFINITION. LOAD and STORE (spec/41_data_transfer.md). -/

namespace Sys2Proof.Machine

/-- LOAD `a` (R63). -/
def execLoad (a : Int) (s : State) : Result :=
  withOperand a s fun n => .next (retire .load (some n) s (advance .load (writeAcc (readCell s n) s)))

/-- STORE `a` (R64). -/
def execStore (a : Int) (s : State) : Result :=
  withOperand a s fun n => .next (retire .store (some n) s (advance .store (writeCell n s.acc s)))

end Sys2Proof.Machine
end

