-- ==== Sys2Proof/Machine/System.lean ====
section
/-! DEFINITION. HALT, PRINT and NOP (spec/44_system.md). -/

namespace Sys2Proof.Machine

/-- HALT: the run state only; PC stays (R72, C1). -/
def execHalt (s : State) : Result := .next (retire .halt none s (haltRun s))

/-- PRINT (R73). -/
def execPrint (s : State) : Result := .next (retire .print none s (advance .print (out s.acc s)))

/-- NOP (R74). -/
def execNop (s : State) : Result := .next (retire .nop none s (advance .nop s))

end Sys2Proof.Machine
end

