-- ==== Sys2Proof/Machine/Dispatch.lean ====
section
/-! DEFINITION. The dispatch of the execute phase (R55), total over the nine opcodes. -/

namespace Sys2Proof.Machine

/-- The operand-address check, the execute phase, the PC rule, the record and the count of one decoded instruction
(R54 to R59; log 13). -/
def exec (i : Instr) (s : State) : Host.Outcome State Fault Refusal :=
  match i with
  | .halt => Sys2Proof.Machine.execHalt s
  | .load a => Sys2Proof.Machine.execLoad a s
  | .add a => Sys2Proof.Machine.execAdd a s
  | .store a => Sys2Proof.Machine.execStore a s
  | .print => Sys2Proof.Machine.execPrint s
  | .sub a => Sys2Proof.Machine.execSub a s
  | .jmp a => Sys2Proof.Machine.execJmp a s
  | .jz a => Sys2Proof.Machine.execJz a s
  | .nop => Sys2Proof.Machine.execNop s

end Sys2Proof.Machine
end

