-- ==== Sys2Proof/Machine/Engine.lean ====
section
/-! DEFINITION. The sub-block fetch_decode_execute_engine: fetching, the step of R49 to R59, one turn of the run loop of
R60, and the placing of an instruction where the next step fetches it. -/

namespace Sys2Proof.Machine

/-- The cells the step fetches at PC, lowest address first: the opcode cell if PC is in range (R50, R51), then the
operand cell if PC + 1 is (R53). Both are read from current memory (R31). -/
def fetchWindow (s : State) : List Int :=
  match memRead s s.pc with
  | none => []
  | some code =>
    match memRead s (s.pc + 1) with
    | none => [code]
    | some a => [code, a]

/-- One step (R49 to R59). The checks fall in the order of R80: Fetch, unknown opcode, OperandCell, and in `exec`
OperandAddress. -/
def engineStep (s : State) : Result :=
  match decode s.config.codes (fetchWindow s) with
  | .ok (i, _) => exec i s
  | .error .noOpcodeCell => .next (abort .fetch s.pc s)
  | .error (.unknownOpcode code) => .next (stopUnknown code s)
  | .error (.noOperandCell _) => .next (abort .operandCell (s.pc + 1) s)

/-- One turn of the run loop (R60): the guard is tested before the step; no step is taken unless the run state is
Running. -/
def loopTurn (s : State) : Result :=
  match s.runState with
  | .running => if s.stepCount = s.config.maxSteps then .next (expireGuard s) else engineStep s
  | .halted => .fault (.notRunning .halted)
  | .abortedFatal reason => .fault (.notRunning (.abortedFatal reason))
  | .stoppedUnknownOpcode => .fault (.notRunning .stoppedUnknownOpcode)
  | .guardExpired => .fault (.notRunning .guardExpired)

/-- Cells written from address `a` upward. -/
def placeCells (a : Nat) (cells : List Int) (s : State) : State :=
  match cells with
  | [] => s
  | v :: rest => placeCells (a + 1) rest (writeCell a v s)

/-- The cells of a table word that its instruction takes: one if the opcode is unknown or has arity 0, else two. -/
def instructionCells (c : Config) (nbits w : Nat) : List Int :=
  match decode c.codes (tableCells c.wordWidth nbits w) with
  | .ok (i, _) => (tableCells c.wordWidth nbits w).take i.opcode.length
  | .error _ => (tableCells c.wordWidth nbits w).take 1

/-- The next turn of the run loop fetches `n` cells at PC. -/
abbrev CanFetch (n : Nat) (s : State) : Prop :=
  s.runState = .running ∧ s.stepCount ≠ s.config.maxSteps ∧ s.pc + n ≤ s.config.memSize

/-- `cells` stored where the next step fetches. Where no step can fetch them (the run has ended, the guard has been
reached, or PC leaves no room) a new run is started first (R94), and they stand at address 0 (R95; log 11). -/
def placeInstruction (cells : List Int) (s : State) : State :=
  if CanFetch cells.length s then placeCells s.pc cells s else placeCells 0 cells (startRun s)

end Sys2Proof.Machine
end

