-- ==== Sys2Proof/Machine/Step.lean ====
section
/-! DEFINITION. The machine's step. -/

namespace Sys2Proof.Machine

/-- One turn of the run loop (R60; log 7). -/
def step (s : State) : Host.Outcome State Fault Refusal := loopTurn s

/-- `s` with a table word's instruction stored where the next step fetches it (log 11). -/
def State.withFetchWord (s : State) (nbits w : Nat) : State :=
  placeInstruction (instructionCells s.config nbits w) s

end Sys2Proof.Machine
end

