-- ==== Sys2Proof/Machine/Run.lean ====
section
/-! DEFINITION. A whole run: run start (R94), the loop (R60), the result (R22) and the post-run clear (R96). -/

namespace Sys2Proof.Machine

/-- `clear()`: every cell 0, no label, the cursor 0 (R34, D21). -/
def clearStore (s : State) : State := { s with mem := [], labels := [], cursor := 0 }

/-- The code of a run state (R75, R92; D18). -/
def RunState.code : RunState → Nat
  | .running => 0
  | .halted => 1
  | .abortedFatal _ => 2
  | .stoppedUnknownOpcode => 3
  | .guardExpired => 4

/-- What a run returns to the host (R22). The final PC is not returned. -/
structure RunResult where
  status : RunState
  trace : List StepRecord
  output : List Int
  cells : Memory
  labels : Labels
  deriving DecidableEq, Repr

/-- The result taken when the run stops, before the post-run clear (R22, R96; C7). -/
def resultOf (s : State) : RunResult where
  status := s.runState
  trace := s.trace
  output := s.output
  cells := s.mem
  labels := s.labels

/-- The final ACC and Z: those of the last record, or the run-start values of an empty trace (R22). -/
def finalRegisters (trace : List StepRecord) : Int × Bool :=
  match trace.getLast? with
  | some r => (r.acc, r.z)
  | none => (0, false)

/-- After the result is returned, memory, labels and cursor are cleared and the trace is discarded (R96). -/
def postRunClear (s : State) : State := { clearStore s with trace := [] }

/-- The loop of R60: turns until the run state is not Running, at most `fuel` of them. -/
def runLoop (fuel : Nat) (s : State) : Result :=
  match fuel with
  | 0 => .next s
  | k + 1 =>
    match s.runState with
    | .running =>
      match step s with
      | .next t => runLoop k t
      | .fault f => .fault f
      | .refused r => .refused r
    | .halted => .next s
    | .abortedFatal _ => .next s
    | .stoppedUnknownOpcode => .next s
    | .guardExpired => .next s

/-- How many turns a run takes at most: MAX_STEPS steps and the guard's (R61). -/
def runFuel (s : State) : Nat := s.config.maxSteps + 1

/-- The state in which a run started from `s` stops (R60). -/
def runToEnd (s : State) : Result := runLoop (runFuel s) (startRun s)

/-- `run()`: the result, and the machine after the post-run clear (R60, R96). -/
def run (s : State) : Host.Outcome (RunResult × State) Fault Refusal :=
  match runToEnd s with
  | .next t => .next (resultOf t, postRunClear t)
  | .fault f => .fault f
  | .refused r => .refused r

end Sys2Proof.Machine
end

