-- ==== Sys2Proof/Machine/Loader.lean ====
section
/-! DEFINITION. The host's load surface (R34 to R39, R91): what builds the memory a run starts from. None of it runs
during a run (R30; log 19). -/

namespace Sys2Proof.Machine

/-- The recoverable errors of the load surface (R91). -/
inductive LoadError where
  | unrecognizedMnemonic
  | unrecognizedCommand
  | missingOperand
  | memoryFull
  | outOfRangeAddress
  | unknownExample
  deriving DecidableEq, Repr

/-- A command of the load surface (R39). -/
inductive LoadCommand where
  /-- `{mnemonic, operand?}`. -/
  | append (mnemonic : String) (operand : Option Int)
  /-- `{address, integer}`. -/
  | writeRaw (addr : Int) (value : Int)
  /-- `{address, identifier}`. -/
  | label (addr : Int) (name : String)
  /-- `{example_name}`. -/
  | loadExample (name : String)
  /-- A command matching no form. -/
  | unmatched
  deriving DecidableEq, Repr

/-- How a load command answers: an error, and nothing is changed, or the new state. -/
abbrev LoadResult := Except LoadError State

/-- A load-time integer as a Word. One that is no Word is rejected (D26); the error is the model's DESIGN CHOICE:
log 20. -/
def loadWord (width : Nat) (v : Int) : Except LoadError Int :=
  if IsWord width v then .ok v else .error .unrecognizedCommand

/-- The operand of an `append`, against the opcode's arity (R35 checks 2 and its D32). -/
def appendOperand (width : Nat) (op : Opcode) (operand : Option Int) : Except LoadError (Option Int) :=
  match op.arity, operand with
  | 0, none => .ok none
  | 0, some _ => .error .unrecognizedCommand
  | _ + 1, none => .error .missingOperand
  | _ + 1, some v =>
    match loadWord width v with
    | .ok a => .ok (some a)
    | .error e => .error e

/-- Cells written at the cursor, which advances past them; `MemoryFull` if they do not fit (R35 check 3). -/
def appendCells (cells : List Int) (s : State) : LoadResult :=
  if s.cursor + cells.length ≤ s.config.memSize then
    .ok { placeCells s.cursor cells s with cursor := s.cursor + cells.length }
  else .error .memoryFull

/-- `append(mnemonic, operand?)` (R35). -/
def appendInstruction (mnemonic : String) (operand : Option Int) (s : State) : LoadResult :=
  match Opcode.ofMnemonic mnemonic with
  | none => .error .unrecognizedMnemonic
  | some op =>
    match appendOperand s.config.wordWidth op operand with
    | .error e => .error e
    | .ok a => appendCells (s.config.codes.code op :: a.toList) s

/-- `write_raw(addr, value)` (R36): checks the range, writes the cell, bypasses the cursor. -/
def writeRaw (addr value : Int) (s : State) : LoadResult :=
  match cellAddress s.config.memSize addr with
  | none => .error .outOfRangeAddress
  | some n =>
    match loadWord s.config.wordWidth value with
    | .ok v => .ok (writeCell n v s)
    | .error e => .error e

/-- `label(addr, name)` (R37). -/
def setLabel (addr : Int) (name : String) (s : State) : LoadResult :=
  match cellAddress s.config.memSize addr with
  | some n => .ok { s with labels := Labels.set s.labels n name }
  | none => .error .outOfRangeAddress

/-- The program of a catalog name (R38). -/
def ExampleCatalog.find (c : ExampleCatalog) (name : String) : Option ExampleProgram :=
  if name = "suma" then some c.suma
  else if name = "resta" then some c.resta
  else if name = "bucle" then some c.bucle
  else none

/-- Labels attached one after another. -/
def placeLabels (labels : List (Nat × String)) (s : State) : State :=
  match labels with
  | [] => s
  | (a, name) :: rest => placeLabels rest { s with labels := Labels.set s.labels a name }

/-- `load_example(name)` (R38): clear, cells, labels. A program that does not fit is rejected with `MemoryFull`
(DESIGN CHOICE: log 21). -/
def loadExample (name : String) (s : State) : LoadResult :=
  match ExampleCatalog.find s.config.examples name with
  | none => .error .unknownExample
  | some e =>
    if e.cells.length ≤ s.config.memSize then .ok (placeLabels e.labels (placeCells 0 e.cells (clearStore s)))
    else .error .memoryFull

/-- The load surface (R39). -/
def loadCommand (c : LoadCommand) (s : State) : LoadResult :=
  match c with
  | .append mnemonic operand => appendInstruction mnemonic operand s
  | .writeRaw addr value => writeRaw addr value s
  | .label addr name => setLabel addr name s
  | .loadExample name => loadExample name s
  | .unmatched => .error .unrecognizedCommand

end Sys2Proof.Machine
end

