-- ==== Sys2Proof/Safety.lean ====
section
/-! DEFINITION. What a sound state and a safe run are, in the terms the statements use. -/

namespace Sys2Proof.Machine

/-- The address lies in `[0, MEM_SIZE)`, said without the model's decoder (R25). -/
abbrev InRange (s : State) (a : Int) : Prop := 0 ≤ a ∧ a < s.config.memSize

/-- A step is about to be taken: the run goes on and the guard is not reached (R49, R60). -/
abbrev State.Ready (s : State) : Prop := s.runState = .running ∧ s.stepCount ≠ s.config.maxSteps

/-- `t` with the record and the count that a completed step from PC `p` adds (R57, R59): ACC and Z of the record are
those of `t`; `d` is its description. -/
def withRecord (p : Nat) (op : Opcode) (operand : Option Nat) (d : String) (t : State) : State :=
  { t with
    trace := t.trace ++ [{ pc := p, opcode := .known op, operand := operand, acc := t.acc, z := t.z, description := d }]
    stepCount := t.stepCount + 1 }

/-- `s` with its run state AbortedFatal(OutOfRangeAddress(kind, addr)) and nothing else changed (R58). -/
def withAbort (kind : AddressKind) (addr : Int) (s : State) : State :=
  { s with runState := .abortedFatal (.outOfRangeAddress kind addr) }

/-- The Words PRINT steps of a trace printed, in order (R15, R73). -/
def printedWords (trace : List StepRecord) : List Int :=
  (trace.filter fun r => r.opcode == .known .print).map (·.acc)

/-- A record after which the run goes on: neither HALT nor an unknown opcode (R75). -/
abbrev StepRecord.Continues (r : StepRecord) : Prop :=
  match r.opcode with
  | .known op => op ≠ .halt
  | .unknown _ => False

/-- The run state agrees with the trace (R12, R61, R72, R76 to R79). -/
def StatusMatches (s : State) : Prop :=
  match s.runState with
  | .running => ∀ r ∈ s.trace, r.Continues
  | .halted => ∃ before r, s.trace = before ++ [r] ∧ r.opcode = .known .halt ∧ r.pc = s.pc ∧ ∀ q ∈ before, q.Continues
  | .abortedFatal (.outOfRangeAddress _ addr) => ¬ InRange s addr ∧ ∀ r ∈ s.trace, r.Continues
  | .stoppedUnknownOpcode =>
    ∃ before r code, s.trace = before ++ [r] ∧ r.opcode = .unknown code ∧ r.pc = s.pc ∧ ∀ q ∈ before, q.Continues
  | .guardExpired => s.stepCount = s.config.maxSteps ∧ ∀ r ∈ s.trace, r.Continues

/-- The memory side of a sound state: parameters, cells, labels and cursor are as the spec lays them out. -/
structure StoreInv (s : State) : Prop where
  /-- The parameters meet R7. -/
  config_wf : s.config.WellFormed
  /-- The cells are in canonical form. -/
  mem_wf : Memory.Wf s.mem
  /-- Every cell holds a Word of WORD_WIDTH bits (R7, R14). -/
  mem_words : ∀ c ∈ s.mem, IsWord s.config.wordWidth c.2
  /-- No cell lies outside `[0, MEM_SIZE)` (R14). -/
  mem_inside : ∀ c ∈ s.mem, c.1 < s.config.memSize
  /-- The labels are in canonical form. -/
  labels_wf : Labels.Wf s.labels
  /-- No label lies outside `[0, MEM_SIZE)` (R37). -/
  labels_inside : ∀ l ∈ s.labels, l.1 < s.config.memSize
  /-- The cursor lies in `[0, MEM_SIZE]` (R35). -/
  cursor_le : s.cursor ≤ s.config.memSize

/-- A sound state of a run. -/
structure RunInv (s : State) : Prop where
  store : StoreInv s
  /-- PC lies in `[0, MEM_SIZE]` (R9). -/
  pc_le : s.pc ≤ s.config.memSize
  /-- ACC is a Word of WORD_WIDTH bits (R10). -/
  acc_word : IsWord s.config.wordWidth s.acc
  /-- The guard bounds the steps of a run (R61). -/
  count_le : s.stepCount ≤ s.config.maxSteps
  /-- The counter counts the records (R13, R59). -/
  count_eq : s.stepCount = s.trace.length
  /-- ACC and Z are those of the last record, or the run-start values (R22). -/
  last_record : finalRegisters s.trace = (s.acc, s.z)
  /-- What was printed is Words (R15). -/
  output_words : ∀ v ∈ s.output, IsWord s.config.wordWidth v
  /-- The output is what the PRINT steps printed (R15, R73). -/
  printed : s.output = printedWords s.trace
  /-- Every record's address, and its operand if there is one, is a cell, and its ACC a Word (R16, R54). -/
  records_sound : ∀ r ∈ s.trace, r.pc < s.config.memSize ∧ (∀ a ∈ r.operand, a < s.config.memSize) ∧
    IsWord s.config.wordWidth r.acc
  /-- The run state agrees with the trace. -/
  status : StatusMatches s

end Sys2Proof.Machine
end

