-- ==== Sys2Proof/Certificates/Slice0/Obligations.lean ====
section
/-! DEFINITION. The statements for the provers. A record's description is a free value (log 12): a statement says only
that there is one. Statements hold for every value of the parameters unless they say otherwise. -/

open Sys2Proof Sys2Proof.Machine

/-! ### Reset, address decoder, memory -/

/-- R20: at session start, and after every run, no cell and no label is set; at session start the cursor is 0; the
registers are set at the start of a run. -/
def Obligations.SessionStartStoreIsEmpty : Prop :=
  (∀ (c : Config) (a : Nat),
      readCell (State.initial c) a = 0 ∧ Labels.find (State.initial c).labels a = none ∧
        (State.initial c).cursor = 0) ∧
    (∀ (s : State) (a : Nat), readCell (postRunClear s) a = 0 ∧ Labels.find (postRunClear s).labels a = none) ∧
    ∀ s : State, (startRun s).pc = 0 ∧ (startRun s).acc = 0 ∧ (startRun s).z = false

/-- R21, R94: run start sets the registers, the run state, the counter and the two outputs, and nothing else; the state
after reset is a run-start state. The spec's choices in it: registers set at every run start D19 (log 23), the reference
parameters D1, D3, D4, D5 (log 3). The model's own: the reset state as a run-start state (log 10). -/
def Obligations.RunStartSetsTheRegisters : Prop :=
  (∀ s : State, ∃ t : State, startRun s = t ∧ t.runState = .running ∧ t.pc = 0 ∧ t.acc = 0 ∧ t.z = false ∧
      t.stepCount = 0 ∧ t.output = [] ∧ t.trace = [] ∧
      t.config = s.config ∧ t.mem = s.mem ∧ t.labels = s.labels ∧ t.cursor = s.cursor) ∧
    startRun State.reset = State.reset ∧ State.reset.config.wordWidth = 32 ∧ State.reset.config.memSize = 32 ∧
     State.reset.config.maxSteps = 100

/-- R25: the decoder accepts exactly `[0, MEM_SIZE)`; an address outside it is fatal to the core, whichever way the core
meets it (PC, the operand cell's address, an operand address), and a recoverable rejection of a loader write. The spec's
choices in it: an aborting step makes no record D9 (log 14), what the step counter counts D28 (log 28), an abort's kind
and address D29 (log 9). -/
def Obligations.EveryAddressIsRangeChecked : Prop :=
  (∀ (n : Nat) (a : Int), inRange n a = true ↔ 0 ≤ a ∧ a < n) ∧
    (∀ s : State, s.Ready → ¬ InRange s s.pc → ∃ k, step s = .next (withAbort k s.pc s)) ∧
    (∀ (s : State) (op : Opcode), s.Ready → s.config.codes.Injective → InRange s s.pc → ¬ InRange s (s.pc + 1) →
      readCell s s.pc = s.config.codes.code op → op.arity = 1 → ∃ k, step s = .next (withAbort k (s.pc + 1) s)) ∧
    (∀ (s : State) (i : Instr) (a : Int), i.operand = some a → ¬ InRange s a →
      ∃ k, exec i s = .next (withAbort k a s)) ∧
    ∀ (s : State) (a v : Int), ¬ InRange s a → writeRaw a v s = .error .outOfRangeAddress

/-- R27: MemWrite sets cell `a`, changes no other cell and no label (nor anything else), and requires `in_range(a)`. -/
def Obligations.MemWriteSetsOneCell : Prop :=
  ∀ (s : State) (a v : Int),
    (InRange s a → ∃ t, memWrite a v s = some t ∧ readCell t a.toNat = v ∧
      (∀ b : Nat, b ≠ a.toNat → readCell t b = readCell s b) ∧ t = { s with mem := t.mem }) ∧
    (¬ InRange s a → memWrite a v s = none)

/-- A write keeps the memory's canonical form, and two canonical memories that read alike everywhere are one list. The
model's own: the cell list (log 1). -/
def Obligations.MemoryFormIsCanonical : Prop :=
  (∀ (m : Memory) (a : Nat) (v : Int), Memory.Wf m → Memory.Wf (Memory.write m a v)) ∧
    ∀ m n : Memory, Memory.Wf m → Memory.Wf n → (∀ a, Memory.read m a = Memory.read n a) → m = n

/-! ### Decoder and encoder -/

/-- R43: arity 0 for HALT, PRINT and NOP, 1 for the others; the length of an instruction is `1 + arity` cells. -/
def Obligations.ArityAndLength : Prop :=
  (∀ op : Opcode, op.arity = if op = .halt ∨ op = .print ∨ op = .nop then 0 else 1) ∧
    (∀ op : Opcode, op.length = 1 + op.arity) ∧
    ∀ (codes : OpcodeCodes) (i : Instr), (encode codes i).length = 1 + i.opcode.arity

/-- Words written out from the table decode to the instructions they stand for. The spec's choices in it: a Word of
WORD_WIDTH bits D1 (log 5), the codes D4 (log 4), the opcode cell at the lower address D11 (log 1). The model's own: the
numbering of a word (log 11). -/
def Obligations.TableWordsDecode : Prop :=
  decodeTableWord 32 0x00000000 = some .halt ∧
    decodeTableWord 64 0x0000000800000001 = some (.load 8) ∧
    decodeTableWord 64 0x0000000900000002 = some (.add 9) ∧
    decodeTableWord 64 0x0000000A00000003 = some (.store 10) ∧
    decodeTableWord 32 0x00000004 = some .print ∧
    decodeTableWord 64 0x0000000700000005 = some (.sub 7) ∧
    decodeTableWord 64 0xFFFFFFFF00000006 = some (.jmp (-1)) ∧
    decodeTableWord 64 0x0000000B00000007 = some (.jz 11) ∧
    decodeTableWord 32 0x00000008 = some .nop ∧
    decodeTableWord 32 0x00000009 = none

/-- Decoding reads the whole cell: it gives the opcode whose code the cell holds and no other, and under the listed
codes a Word is unknown exactly when it is none of 0 to 8 (R42). The spec's choices in it: the codes D4 (log 4). -/
def Obligations.DecoderReadsTheWholeCell : Prop :=
  (∀ (codes : OpcodeCodes) (code : Int) (op : Opcode), codes.Injective →
      (decodeOpcode codes code = some op ↔ codes.code op = code)) ∧
    ∀ code : Int, decodeOpcode .listed code = none ↔ code < 0 ∨ 8 < code

/-- Decode and encode agree, for every instruction, every operand Word and every injective code table: the cells that
decode to `i` are exactly the cells of `i`, whatever follows them. The spec's choices in it: the opcode cell at the
lower address D11 (log 1). -/
def Obligations.DecodeInvertsEncode : Prop :=
  ∀ (codes : OpcodeCodes) (cells rest : List Int) (i : Instr), codes.Injective →
    (decode codes cells = .ok (i, rest) ↔ cells = encode codes i ++ rest)

/-- The two cells of an instruction written side by side as one word, each in two's complement of the width, opcode cell
lowest, decode to the instruction, for every WORD_WIDTH and every operand that is a Word. The spec's choices in it: a
Word of WORD_WIDTH bits D1 (log 5), the opcode cell at the lower address D11 (log 1). The model's own: the numbering of
a word (log 11). -/
def Obligations.PackedWordDecodes : Prop :=
  ∀ (width : Nat) (codes : OpcodeCodes) (i : Instr), 1 ≤ width → codes.Injective → codes.AreWords width →
    i.Encodable width →
    ∃ rest, decode codes (tableCells width (2 * width)
      ((codes.code i.opcode % 2 ^ width).toNat + (i.operand.getD 0 % 2 ^ width).toNat * 2 ^ width)) = .ok (i, rest)

/-- The decoder refuses by name, and says which of its three reasons holds. The spec's choices in it: the opcode cell at
the lower address D11 (log 1). -/
def Obligations.DecoderRefusesByName : Prop :=
  ∀ (codes : OpcodeCodes) (cells : List Int), codes.Injective →
    (decode codes cells = .error .noOpcodeCell ↔ cells = []) ∧
    (∀ code, decode codes cells = .error (.unknownOpcode code) ↔
      (∀ op, codes.code op ≠ code) ∧ ∃ rest, cells = code :: rest) ∧
    ∀ op, decode codes cells = .error (.noOperandCell op) ↔ op.arity = 1 ∧ cells = [codes.code op]

/-- R47: a text is a mnemonic exactly when it is, letter for letter, one of the nine spellings; any other text is
`UnrecognizedMnemonic`. -/
def Obligations.MnemonicsMatchExactly : Prop :=
  (∀ (text : String) (op : Opcode), Opcode.ofMnemonic text = some op ↔ text = op.mnemonic) ∧
    Opcode.all.map Opcode.mnemonic = ["HALT", "LOAD", "ADD", "STORE", "PRINT", "SUB", "JMP", "JZ", "NOP"] ∧
    ∀ (text : String) (operand : Option Int) (s : State),
      text ∉ ["HALT", "LOAD", "ADD", "STORE", "PRINT", "SUB", "JMP", "JZ", "NOP"] →
      appendInstruction text operand s = .error .unrecognizedMnemonic

/-! ### What each instruction does -/

/-- LOAD: encoding, effect and frame when the operand is in range, and the two exceptions before execute. The spec's
choices in it: the codes D4 (log 4), PC never wraps D6 (log 15), a record's PC and Z D7 (log 14), an aborting step makes
no record D9 (log 14), the opcode cell at the lower address D11 (log 1), what the step counter counts D28 (log 28), an
abort's kind and address D29 (log 9). -/
def Obligations.LoadEffect : Prop :=
  ∀ (s : State) (a : Int),
    encode .listed (.load a) = [1, a] ∧
    (InRange s a → ∃ d, exec (.load a) s = .next (withRecord s.pc .load (some a.toNat) d
      { s with acc := readCell s a.toNat, z := decide (readCell s a.toNat = 0), pc := s.pc + 2 })) ∧
    (¬ InRange s a → exec (.load a) s = .next (withAbort .operandAddress a s)) ∧
    (s.Ready → s.config.codes.Injective → s.pc + 1 = s.config.memSize → readCell s s.pc = s.config.codes.load →
      step s = .next (withAbort .operandCell (s.pc + 1) s))

/-- STORE: encoding, effect and frame when the operand is in range (ACC, Z, the labels and every other cell stay), and
the two exceptions before execute. The spec's choices in it: STORE writes the cell at the operand address itself C5
(log 17), the codes D4 (log 4), PC never wraps D6 (log 15), a record's PC and Z D7 (log 14), an aborting step makes no
record D9 (log 14), the opcode cell at the lower address D11 (log 1), what the step counter counts D28 (log 28), an
abort's kind and address D29 (log 9). -/
def Obligations.StoreEffect : Prop :=
  ∀ (s : State) (a : Int),
    encode .listed (.store a) = [3, a] ∧
    (InRange s a → ∃ d m, exec (.store a) s = .next (withRecord s.pc .store (some a.toNat) d
        { s with mem := m, pc := s.pc + 2 }) ∧
      Memory.read m a.toNat = s.acc ∧ ∀ b : Nat, b ≠ a.toNat → Memory.read m b = readCell s b) ∧
    (¬ InRange s a → exec (.store a) s = .next (withAbort .operandAddress a s)) ∧
    (s.Ready → s.config.codes.Injective → s.pc + 1 = s.config.memSize → readCell s s.pc = s.config.codes.store →
      step s = .next (withAbort .operandCell (s.pc + 1) s))

/-- ADD: under policy wrap ACC is the sum of ACC and the cell, wrapped into the signed range of WORD_WIDTH bits; a sum
that is a Word is ACC as it is, under either policy; Z is the zero test of the new ACC; the model-only refusal under
policy fault when the sum is no Word; the abort when the operand is out of range. The spec's choices in it: a Word of
WORD_WIDTH bits D1 (log 5), overflow D2 (log 6), PC never wraps D6 (log 15), a record's PC and Z D7 (log 14), an
aborting step makes no record D9 (log 14), what the step counter counts D28 (log 28), an abort's kind and address D29
(log 9). -/
def Obligations.AddEffect : Prop :=
  ∀ (s : State) (a : Int),
    (InRange s a → s.config.overflowPolicy = .wrap →
      ∃ d v, exec (.add a) s = .next (withRecord s.pc .add (some a.toNat) d
          { s with acc := v, z := decide (v = 0), pc := s.pc + 2 }) ∧
        v = (s.acc + readCell s a.toNat + 2 ^ (s.config.wordWidth - 1)) % 2 ^ s.config.wordWidth -
          2 ^ (s.config.wordWidth - 1)) ∧
    (InRange s a → 1 ≤ s.config.wordWidth → IsWord s.config.wordWidth (s.acc + readCell s a.toNat) →
      ∃ d, exec (.add a) s = .next (withRecord s.pc .add (some a.toNat) d
        { s with acc := s.acc + readCell s a.toNat, z := decide (s.acc + readCell s a.toNat = 0), pc := s.pc + 2 })) ∧
    (InRange s a → s.config.overflowPolicy = .fault → ¬ IsWord s.config.wordWidth (s.acc + readCell s a.toNat) →
      exec (.add a) s = .refused .arithmeticOverflow) ∧
    (¬ InRange s a → exec (.add a) s = .next (withAbort .operandAddress a s))

/-- SUB: ACC minus the cell, in that order, as ADD. The spec's choices in it: a Word of WORD_WIDTH bits D1 (log 5),
overflow D2 (log 6), PC never wraps D6 (log 15), a record's PC and Z D7 (log 14), an aborting step makes no record D9
(log 14), what the step counter counts D28 (log 28), an abort's kind and address D29 (log 9). -/
def Obligations.SubEffect : Prop :=
  ∀ (s : State) (a : Int),
    (InRange s a → s.config.overflowPolicy = .wrap →
      ∃ d v, exec (.sub a) s = .next (withRecord s.pc .sub (some a.toNat) d
          { s with acc := v, z := decide (v = 0), pc := s.pc + 2 }) ∧
        v = (s.acc - readCell s a.toNat + 2 ^ (s.config.wordWidth - 1)) % 2 ^ s.config.wordWidth -
          2 ^ (s.config.wordWidth - 1)) ∧
    (InRange s a → 1 ≤ s.config.wordWidth → IsWord s.config.wordWidth (s.acc - readCell s a.toNat) →
      ∃ d, exec (.sub a) s = .next (withRecord s.pc .sub (some a.toNat) d
        { s with acc := s.acc - readCell s a.toNat, z := decide (s.acc - readCell s a.toNat = 0), pc := s.pc + 2 })) ∧
    (InRange s a → s.config.overflowPolicy = .fault → ¬ IsWord s.config.wordWidth (s.acc - readCell s a.toNat) →
      exec (.sub a) s = .refused .arithmeticOverflow) ∧
    (¬ InRange s a → exec (.sub a) s = .next (withAbort .operandAddress a s))

/-- R65 under the default policy, for every WORD_WIDTH: the result is the one Word congruent to the exact result modulo
2^WORD_WIDTH, and Z's test is made on the wrapped result (R66). The spec's choices in it: a Word of WORD_WIDTH bits D1
(log 5), overflow D2 (log 6). -/
def Obligations.AluWrapsIntoTheSignedRange : Prop :=
  ∀ (c : Config) (x y : Int), 1 ≤ c.wordWidth → c.overflowPolicy = .wrap →
    (∃ v, addWord c x y = some v ∧ IsWord c.wordWidth v ∧ (2 ^ c.wordWidth : Int) ∣ x + y - v ∧
      (∀ u, IsWord c.wordWidth u → (2 ^ c.wordWidth : Int) ∣ x + y - u → u = v) ∧
      (zero v = true ↔ (2 ^ c.wordWidth : Int) ∣ x + y)) ∧
    ∃ v, subWord c x y = some v ∧ IsWord c.wordWidth v ∧ (2 ^ c.wordWidth : Int) ∣ x - y - v ∧
      (∀ u, IsWord c.wordWidth u → (2 ^ c.wordWidth : Int) ∣ x - y - u → u = v) ∧
      (zero v = true ↔ (2 ^ c.wordWidth : Int) ∣ x - y)

/-- JMP: PC becomes the operand address itself, without a read; out of range aborts. The spec's choices in it: a
record's PC and Z D7 (log 14), an aborting step makes no record D9 (log 14), JMP and JZ go to the operand address itself
C5, D27 (log 17), what the step counter counts D28 (log 28), an abort's kind and address D29 (log 9). -/
def Obligations.JmpEffect : Prop :=
  ∀ (s : State) (a : Int),
    (InRange s a →
      ∃ d, exec (.jmp a) s = .next (withRecord s.pc .jmp (some a.toNat) d { s with pc := a.toNat })) ∧
    (¬ InRange s a → exec (.jmp a) s = .next (withAbort .operandAddress a s))

/-- JZ: to the operand address when Z is true, else past the instruction; out of range aborts, taken or not. The spec's
choices in it: PC never wraps D6 (log 15), a record's PC and Z D7 (log 14), an aborting step makes no record D9
(log 14), JMP and JZ go to the operand address itself C5, D27 (log 17), what the step counter counts D28 (log 28), an
abort's kind and address D29 (log 9). -/
def Obligations.JzEffect : Prop :=
  ∀ (s : State) (a : Int),
    (InRange s a → s.z = true →
      ∃ d, exec (.jz a) s = .next (withRecord s.pc .jz (some a.toNat) d { s with pc := a.toNat })) ∧
    (InRange s a → s.z = false →
      ∃ d, exec (.jz a) s = .next (withRecord s.pc .jz (some a.toNat) d { s with pc := s.pc + 2 })) ∧
    (¬ InRange s a → exec (.jz a) s = .next (withAbort .operandAddress a s))

/-- HALT: the run state becomes Halted and no register changes, PC included (C1); it records (C3) and counts. The spec's
choices in it: a record's PC and Z D7 (log 14), HALT makes a record D8 (log 14), what the step counter counts D28
(log 28). -/
def Obligations.HaltEffect : Prop :=
  ∀ s : State, ∃ d, exec .halt s = .next (withRecord s.pc .halt none d { s with runState := .halted })

/-- PRINT: ACC is appended to the output stream and PC advances by 1. The spec's choices in it: PC never wraps D6
(log 15), a record's PC and Z D7 (log 14), PRINT's output stream D14 (log 18), what the step counter counts D28
(log 28). -/
def Obligations.PrintEffect : Prop :=
  ∀ s : State, ∃ d, exec .print s =
    .next (withRecord s.pc .print none d { s with output := s.output ++ [s.acc], pc := s.pc + 1 })

/-- NOP: encoding; PC advances by 1 and nothing else happens but the record and the count; after a NOP in the last cell
the next step aborts at its fetch. The spec's choices in it: the codes D4 (log 4), PC never wraps D6 (log 15), a
record's PC and Z D7 (log 14), an aborting step makes no record D9 (log 14), what the step counter counts D28 (log 28),
an abort's kind and address D29 (log 9). -/
def Obligations.NopEffect : Prop :=
  encode .listed .nop = [8] ∧
  ∀ s : State, ∃ d, exec .nop s = .next (withRecord s.pc .nop none d { s with pc := s.pc + 1 }) ∧
    ∀ t, exec .nop s = .next t → s.pc + 1 = s.config.memSize → t.Ready →
      step t = .next (withAbort .fetch s.config.memSize t)

/-! ### Rules over all instructions, and frames -/

/-- R11: Z is recomputed by LOAD, ADD and SUB only, from the ACC they leave; every other instruction leaves it; no
instruction but JZ reads it; at run start Z is false although ACC is 0. -/
def Obligations.ZeroFlagRule : Prop :=
  (∀ (i : Instr) (s t : State), i.WellFormed s.config.memSize → exec i s = .next t →
      t.z = if i.opcode = .load ∨ i.opcode = .add ∨ i.opcode = .sub then decide (t.acc = 0) else s.z) ∧
    (∀ (i : Instr) (s t : State) (b : Bool), i.opcode ≠ .jz → exec i s = .next t →
      ∃ u, exec i { s with z := b } = .next u ∧ u.pc = t.pc ∧ u.acc = t.acc ∧ u.mem = t.mem ∧ u.output = t.output ∧
        u.runState = t.runState ∧ u.stepCount = t.stepCount) ∧
    ∀ s : State, (startRun s).z = false ∧ (startRun s).acc = 0

/-- Where PC goes: to the operand address itself at a JMP or a taken JZ, nowhere after HALT (C1), else past the
instruction; it never wraps. The spec's choices in it: PC never wraps D6 (log 15), JMP and JZ go to the operand address
itself C5, D27 (log 17). -/
def Obligations.ProgramCounterRule : Prop :=
  ∀ (i : Instr) (s t : State), i.WellFormed s.config.memSize → exec i s = .next t →
    (i.opcode ≠ .halt → i.opcode ≠ .jmp → (i.opcode = .jz → s.z = false) → t.pc = s.pc + 1 + i.opcode.arity) ∧
    (i.opcode = .halt → t.pc = s.pc) ∧
    ∀ a, i.operand = some a → (i.opcode = .jmp ∨ i.opcode = .jz ∧ s.z = true) → t.pc = a.toNat ∧ t.pc < s.config.memSize

/-- Frame of LOAD, ADD and SUB: ACC, Z, PC, the trace and the counter may change; no cell, label, cursor, parameter or
output does, and the run state only by an abort. -/
def Obligations.FrameOfLoadAddSub : Prop :=
  ∀ (i : Instr) (s t : State), i.opcode = .load ∨ i.opcode = .add ∨ i.opcode = .sub → exec i s = .next t →
    (∀ b, readCell t b = readCell s b) ∧ t.output = s.output ∧ t.labels = s.labels ∧ t.cursor = s.cursor ∧
    t.config = s.config ∧ (i.WellFormed s.config.memSize → t.runState = s.runState)

/-- Frame of STORE: the cell at the operand's address, and no other; not ACC, Z, output, label, cursor or parameter. The
spec's choices in it: STORE writes the cell at the operand address itself C5 (log 17). -/
def Obligations.FrameOfStore : Prop :=
  ∀ (a : Int) (s t : State), exec (.store a) s = .next t →
    (∀ n, operandAddress s a = some n → readCell t n = s.acc ∧ t.runState = s.runState ∧
      ∀ b, b ≠ n → readCell t b = readCell s b) ∧
    (operandAddress s a = none → ∀ b, readCell t b = readCell s b) ∧
    t.acc = s.acc ∧ t.z = s.z ∧ t.output = s.output ∧ t.labels = s.labels ∧ t.cursor = s.cursor ∧ t.config = s.config

/-- Frame of PRINT, JMP, JZ, NOP and HALT: not ACC, Z, any cell, label, cursor or parameter; the output only by PRINT,
the run state only by HALT and by the abort of JMP and JZ. -/
def Obligations.FrameOfControlAndSystem : Prop :=
  ∀ (i : Instr) (s t : State), i.opcode ∈ [Opcode.print, .jmp, .jz, .nop, .halt] → exec i s = .next t →
    t.acc = s.acc ∧ t.z = s.z ∧ (∀ b, readCell t b = readCell s b) ∧ t.labels = s.labels ∧ t.cursor = s.cursor ∧
    t.config = s.config ∧ (i.opcode ≠ .print → t.output = s.output) ∧
    (i.opcode ≠ .halt → i.WellFormed s.config.memSize → t.runState = s.runState)

/-- Every instruction answers a next state: its effect, recorded and counted, or, where its operand is out of range, the
fatal abort (R54, R58), which is no completion (R75). No instruction faults, and the only refusal is the overflow of ADD
or SUB under policy fault (R65). The spec's choices in it: overflow D2 (log 6), HALT makes a record D8 (log 14), an
aborting step makes no record D9 (log 14), what the step counter counts D28 (log 28), an abort's kind and address D29
(log 9). -/
def Obligations.InstructionsAnswerANextState : Prop :=
  (∀ (i : Instr) (s : State), s.config.overflowPolicy = .wrap →
      ∃ t, exec i s = .next t ∧
        (i.WellFormed s.config.memSize → t.stepCount = s.stepCount + 1 ∧ t.trace.length = s.trace.length + 1) ∧
        ∀ a, i.operand = some a → ¬ InRange s a → t = withAbort .operandAddress a s) ∧
    (∀ (i : Instr) (s : State) (f : Fault), exec i s ≠ .fault f) ∧
    ∀ (i : Instr) (s : State) (r : Refusal), exec i s = .refused r →
      r = .arithmeticOverflow ∧ s.config.overflowPolicy = .fault ∧ (i.opcode = .add ∨ i.opcode = .sub)

/-! ### The step and the run -/

/-- A step runs the instruction whose cells stand at PC: `step` is `exec` of it at that state. The spec's choices in it:
the opcode cell at the lower address D11 (log 1). The model's own: a step as one turn of the run loop (log 7). -/
def Obligations.StepRunsTheDecodedInstruction : Prop :=
  ∀ (s : State) (i : Instr), s.Ready → s.config.codes.Injective → InRange s s.pc →
    s.config.codes.code i.opcode = readCell s s.pc →
    (∀ a, i.operand = some a → InRange s (s.pc + 1) ∧ readCell s (s.pc + 1) = a) →
    step s = exec i s

/-- R80: the order of the checks: guard, then PC, then the opcode (so an unknown code in the last cell stops
gracefully), then the operand cell, then the operand address. The spec's choices in it: the guard's boundary D5
(log 28), an aborting step makes no record D9 (log 14), the opcode cell at the lower address D11 (log 1), what the step
counter counts D28 (log 28), an abort's kind and address D29 (log 9). The model's own: a step as one turn of the run
loop (log 7). -/
def Obligations.StepChecksInOrder : Prop :=
  ∀ s : State, s.runState = .running → s.config.codes.Injective →
    (s.stepCount = s.config.maxSteps → step s = .next { s with runState := .guardExpired }) ∧
    (s.stepCount ≠ s.config.maxSteps → ¬ InRange s s.pc → step s = .next (withAbort .fetch s.pc s)) ∧
    (s.stepCount ≠ s.config.maxSteps → InRange s s.pc → (∀ op, s.config.codes.code op ≠ readCell s s.pc) →
      ∃ t, step s = .next t ∧ t.runState = .stoppedUnknownOpcode) ∧
    (∀ op, s.stepCount ≠ s.config.maxSteps → InRange s s.pc → readCell s s.pc = s.config.codes.code op → op.arity = 1 →
      (¬ InRange s (s.pc + 1) → step s = .next (withAbort .operandCell (s.pc + 1) s)) ∧
      (InRange s (s.pc + 1) → ¬ InRange s (readCell s (s.pc + 1)) →
        step s = .next (withAbort .operandAddress (readCell s (s.pc + 1)) s)))

/-- An unknown opcode: one record with the raw code and the fixed text, counted, and the graceful stop; nothing else
changes. The spec's choices in it: the unknown opcode's record D10 (log 14), what the step counter counts D28
(log 28). -/
def Obligations.UnknownOpcodeStopsGracefully : Prop :=
  ∀ s : State, s.Ready → InRange s s.pc → (∀ op, s.config.codes.code op ≠ readCell s s.pc) →
    step s = .next { s with
      runState := .stoppedUnknownOpcode
      trace := s.trace ++ [{ pc := s.pc, opcode := .unknown (readCell s s.pc), operand := none, acc := s.acc, z := s.z,
                             description := "unknown instruction" }]
      stepCount := s.stepCount + 1 }

/-- The guard's outcome is reached exactly by a turn that finds MAX_STEPS recorded steps and a Running state, and no
instruction raises it (R78). The spec's choices in it: the guard's boundary D5 (log 28), what the step counter counts
D28 (log 28). The model's own: a step as one turn of the run loop (log 7). -/
def Obligations.GuardExpiryIsTheLoopsOwn : Prop :=
  (∀ s t : State, s.runState = .running → step s = .next t →
      (t.runState = .guardExpired ↔ s.stepCount = s.config.maxSteps)) ∧
    ∀ (i : Instr) (s t : State), exec i s = .next t → t.runState = .guardExpired → s.runState = .guardExpired

/-- No step is taken unless the run state is Running (R12, R49): then, and only then, the model's step faults. The
model's own: the fault as the answer where there is no step (log 8). -/
def Obligations.StepOnlyWhileRunning : Prop :=
  ∀ (s : State) (f : Fault), step s = .fault f ↔ s.runState ≠ .running ∧ f = .notRunning s.runState

/-- Halted is reached only by an explicit HALT opcode at PC (R79), in a state whose guard is not reached. The spec's
choices in it: the guard's boundary D5 (log 28). The model's own: a step as one turn of the run loop (log 7). -/
def Obligations.HaltedOnlyByHalt : Prop :=
  ∀ s t : State, step s = .next t → t.runState = .halted →
    s.Ready ∧ InRange s s.pc ∧ readCell s s.pc = s.config.codes.halt

/-- A step that aborts writes the run state and nothing else (R58). The spec's choices in it: an aborting step makes no
record D9 (log 14), what the step counter counts D28 (log 28). -/
def Obligations.AbortWritesNothing : Prop :=
  ∀ (s t : State) (r : AbortReason), step s = .next t → t.runState = .abortedFatal r →
    t = { s with runState := .abortedFatal r }

/-- R57, R59: a step that neither aborts nor finds the guard reached emits exactly one record, of the instruction at PC,
with ACC and Z as the step leaves them, and counts one. The spec's choices in it: a record's PC and Z D7 (log 14), HALT
makes a record D8 (log 14), the unknown opcode's record D10 (log 14), what the step counter counts D28 (log 28). -/
def Obligations.OneRecordPerCompletedStep : Prop :=
  ∀ s t : State, s.Ready → step s = .next t → (∀ r, t.runState ≠ .abortedFatal r) →
    ∃ r, t.trace = s.trace ++ [r] ∧ r.pc = s.pc ∧ r.acc = t.acc ∧ r.z = t.z ∧ t.stepCount = s.stepCount + 1 ∧
      (r.opcode = .unknown (readCell s s.pc) ∨ ∃ op, r.opcode = .known op ∧ s.config.codes.code op = readCell s s.pc)

/-- A STORE over the next instruction is what the very next step meets (R31). Over its opcode cell: the step runs the
instruction of the stored code, with the operand that stands after it; or it aborts, if that code needs an operand cell
and memory ends; or it stops on the stored Word, if that is no opcode's code. Over its operand cell: the step runs the
instruction on the stored Word. The spec's choices in it: STORE writes the cell at the operand address itself C5
(log 17), PC never wraps D6 (log 15), an aborting step makes no record D9 (log 14), the unknown opcode's record D10
(log 14), the opcode cell at the lower address D11 (log 1), a fetch reads current memory D13 (log 16), what the step
counter counts D28 (log 28), an abort's kind and address D29 (log 9). -/
def Obligations.StoreIsSeenByTheNextFetch : Prop :=
  ∀ (s t : State) (a : Int), exec (.store a) s = .next t → InRange s a → t.Ready → t.config.codes.Injective →
    (a.toNat = s.pc + 2 →
      (∀ i : Instr, s.config.codes.code i.opcode = s.acc →
        (∀ b, i.operand = some b → InRange s (s.pc + 3) ∧ readCell s (s.pc + 3) = b) → step t = exec i t) ∧
      (∀ op, s.config.codes.code op = s.acc → op.arity = 1 → ¬ InRange s (s.pc + 3) →
        step t = .next (withAbort .operandCell (s.pc + 3) t)) ∧
      ((∀ op, s.config.codes.code op ≠ s.acc) → ∃ u r, step t = .next u ∧ u.runState = .stoppedUnknownOpcode ∧
        u.trace = t.trace ++ [r] ∧ r.opcode = .unknown s.acc)) ∧
    (a.toNat = s.pc + 3 → ∀ i : Instr, s.config.codes.code i.opcode = readCell s (s.pc + 2) → i.operand = some s.acc →
      step t = exec i t)

/-- No step reads or writes a label or the loader's cursor, and none writes a parameter (R17, R18, R7): with other
labels and another cursor every step answers the same, and it leaves them and the parameters as they are. The model's
own: the parameters as a field of State (log 2). -/
def Obligations.HostStateIsNeverRead : Prop :=
  ∀ (s : State) (l : Labels) (c : Nat),
    (∀ t, step s = .next t → step { s with labels := l, cursor := c } = .next { t with labels := l, cursor := c } ∧
      t.labels = s.labels ∧ t.cursor = s.cursor ∧ t.config = s.config) ∧
    (∀ f, step s = .fault f → step { s with labels := l, cursor := c } = .fault f) ∧
    ∀ r, step s = .refused r → step { s with labels := l, cursor := c } = .refused r

/-- The state a session starts with is sound, for every parameters that meet R7, and so is the state after reset. The
spec's choices in it: a Word of WORD_WIDTH bits D1 (log 5), the reference parameters D1, D3, D4, D5 (log 3). The model's
own: the reset state as a run-start state (log 10). -/
def Obligations.InitialStateIsSound : Prop :=
  (∀ c : Config, c.WellFormed → RunInv (State.initial c)) ∧ RunInv State.reset

/-- Every step keeps a sound state sound: ACC, every cell and every printed value a Word of WORD_WIDTH bits, PC in
[0, MEM_SIZE], memory canonical and inside the address space, the counter equal to the trace's length and within the
guard, ACC and Z those of the last record, the output what PRINT records say, the run state in agreement with the trace.
The spec's choices in it: a Word of WORD_WIDTH bits D1 (log 5), overflow D2 (log 6), the guard's boundary D5 (log 28),
PC never wraps D6 (log 15), a record's PC and Z D7 (log 14), HALT makes a record D8 (log 14), an aborting step makes no
record D9 (log 14), the unknown opcode's record D10 (log 14), PRINT's output stream D14 (log 18), JMP and JZ go to the
operand address itself C5, D27 (log 17), what the step counter counts D28 (log 28), an abort's kind and address D29
(log 9). The model's own: the cell and label lists (log 1, log 24). -/
def Obligations.StepKeepsTheStateSound : Prop :=
  ∀ s t : State, RunInv s → step s = .next t → RunInv t

/-- Every run ends: from any state a host starts a run in, the loop stops within MAX_STEPS + 1 turns in a run state
other than Running with at most MAX_STEPS records; or, only under policy fault, the model refuses an overflow (R61,
R99). The spec's choices in it: overflow D2 (log 6), the guard's boundary D5 (log 28), what the step counter counts D28
(log 28). -/
def Obligations.EveryRunEnds : Prop :=
  ∀ s : State,
    (∃ t, runToEnd s = .next t ∧ t.runState ≠ .running ∧ t.trace.length ≤ s.config.maxSteps) ∨
      s.config.overflowPolicy = .fault ∧ runToEnd s = .refused .arithmeticOverflow

/-- What a run returns is what its loop stopped with, and it is sound, and the store is cleared after it: the status (a
terminal one, with a code 1 to 4), the trace, the output (which the PRINT records say), the cells and the labels are
those of the last state, the final registers the last record's; then no cell, no label, cursor 0, no trace, with the
parameters kept (R22, R96). The spec's choices in it: a Word of WORD_WIDTH bits D1 (log 5), overflow D2 (log 6), the
guard's boundary D5 (log 28), PC never wraps D6 (log 15), a record's PC and Z D7 (log 14), HALT makes a record D8
(log 14), an aborting step makes no record D9 (log 14), the unknown opcode's record D10 (log 14), PRINT's output stream
D14 (log 18), the status codes D18 (log 27), registers set at every run start D19 (log 23), the result taken before the
clear D20 (log 22), the cursor cleared D21 (log 23), JMP and JZ go to the operand address itself C5, D27 (log 17), what
the step counter counts D28 (log 28). The model's own: the cell list (log 1). -/
def Obligations.RunReturnsASoundResultAndClears : Prop :=
  ∀ (s u : State) (res : RunResult), StoreInv s → run s = .next (res, u) →
    1 ≤ res.status.code ∧ res.status.code ≤ 4 ∧ res.trace.length ≤ s.config.maxSteps ∧
    res.output = printedWords res.trace ∧ res.labels = s.labels ∧ Memory.Wf res.cells ∧
    (∃ t, runToEnd s = .next t ∧ res.status = t.runState ∧ res.trace = t.trace ∧ res.output = t.output ∧
      res.cells = t.mem ∧ res.labels = t.labels ∧ finalRegisters res.trace = (t.acc, t.z)) ∧
    (∀ a, readCell u a = 0 ∧ Labels.find u.labels a = none) ∧ u.cursor = 0 ∧ u.trace = [] ∧ u.config = s.config ∧
    RunInv (startRun u)

/-- The guard only truncates (R61): with a larger MAX_STEPS the same run gives a trace that extends the old one, and the
same end if the old run ended by itself. The spec's choices in it: the guard's boundary D5 (log 28), PRINT's output
stream D14 (log 18), what the step counter counts D28 (log 28). -/
def Obligations.GuardOnlyTruncatesTheRun : Prop :=
  ∀ (s t t' : State) (m : Nat), s.config.maxSteps ≤ m → runToEnd s = .next t →
    runToEnd { s with config := { s.config with maxSteps := m } } = .next t' →
    t.trace <+: t'.trace ∧ t.output <+: t'.output ∧
      (t.runState ≠ .guardExpired → t' = { t with config := { t.config with maxSteps := m } })

/-- The placing of an instruction for the next step does that: the next step runs the decoded instruction. The spec's
choices in it: the opcode cell at the lower address D11 (log 1). The model's own: how a word is numbered and placed
(log 11). -/
def Obligations.PlacedWordRunsNext : Prop :=
  ∀ (s : State) (nbits w : Nat) (i : Instr) (rest : List Int), s.config.WellFormed → 2 ≤ s.config.memSize →
    decode s.config.codes (tableCells s.config.wordWidth nbits w) = .ok (i, rest) →
    step (s.withFetchWord nbits w) = exec i (s.withFetchWord nbits w)

/-! ### The host's load surface -/

/-- `clear()` leaves every cell 0, no label and the cursor 0, and nothing else changes (R34). The spec's choices in it:
the cursor cleared D21 (log 23). -/
def Obligations.ClearEmptiesTheStore : Prop :=
  ∀ s : State, (∀ a, readCell (clearStore s) a = 0 ∧ Labels.find (clearStore s).labels a = none) ∧
    clearStore s = { s with mem := (clearStore s).mem, labels := (clearStore s).labels, cursor := 0 }

/-- `append` lays out the instruction at the cursor, lower address first, and advances the cursor by its length; no
other cell and nothing else changes (R35). The spec's choices in it: the opcode cell at the lower address D11
(log 1). -/
def Obligations.AppendLaysOutTheInstruction : Prop :=
  ∀ (s t : State) (text : String) (operand : Option Int), appendInstruction text operand s = .ok t →
    ∃ i : Instr, i.opcode.mnemonic = text ∧ i.operand = operand ∧
      t.cursor = s.cursor + i.opcode.length ∧ t.cursor ≤ s.config.memSize ∧
      readCell t s.cursor = s.config.codes.code i.opcode ∧
      (∀ a, i.operand = some a → readCell t (s.cursor + 1) = a) ∧
      (∀ b, b < s.cursor ∨ t.cursor ≤ b → readCell t b = readCell s b) ∧
      t = { s with mem := t.mem, cursor := t.cursor }

/-- When `append` rejects and with what error (R35, R91), and when it succeeds. The spec's choices in it: a load-time
value that is no Word rejected D26 (log 20), an operand for arity 0 rejected D32 (log 20). The model's own: the error
for a value that is no Word (log 20). -/
def Obligations.AppendRejections : Prop :=
  ∀ (s : State) (op : Opcode) (v : Int),
    (op.arity = 1 → appendInstruction op.mnemonic none s = .error .missingOperand) ∧
    (op.arity = 0 → appendInstruction op.mnemonic (some v) s = .error .unrecognizedCommand) ∧
    (op.arity = 1 → IsWord s.config.wordWidth v → s.config.memSize < s.cursor + 2 →
      appendInstruction op.mnemonic (some v) s = .error .memoryFull) ∧
    (op.arity = 1 → ¬ IsWord s.config.wordWidth v →
      appendInstruction op.mnemonic (some v) s = .error .unrecognizedCommand) ∧
    (op.arity = 0 → s.config.memSize < s.cursor + 1 → appendInstruction op.mnemonic none s = .error .memoryFull) ∧
    (op.arity = 1 → IsWord s.config.wordWidth v → s.cursor + 2 ≤ s.config.memSize →
      ∃ t, appendInstruction op.mnemonic (some v) s = .ok t) ∧
    (op.arity = 0 → s.cursor + 1 ≤ s.config.memSize → ∃ t, appendInstruction op.mnemonic none s = .ok t)

/-- `write_raw` writes one cell and moves no cursor; `label` attaches or replaces one label and changes no cell; out of
range both are rejected (R36, R37). The spec's choices in it: a label out of range rejected D24 (log 20), a load-time
value that is no Word rejected D26 (log 20), labels of any length D31 (log 24). -/
def Obligations.RawWriteAndLabel : Prop :=
  ∀ (s : State) (a v : Int) (name : String),
    (InRange s a → IsWord s.config.wordWidth v → ∃ t, writeRaw a v s = .ok t ∧ readCell t a.toNat = v ∧
      (∀ b, b ≠ a.toNat → readCell t b = readCell s b) ∧ t = { s with mem := t.mem }) ∧
    (InRange s a → ¬ IsWord s.config.wordWidth v → ∃ e, writeRaw a v s = .error e) ∧
    (InRange s a → ∃ t, setLabel a name s = .ok t ∧ Labels.find t.labels a.toNat = some name ∧
      (∀ b, b ≠ a.toNat → Labels.find t.labels b = Labels.find s.labels b) ∧ t = { s with labels := t.labels }) ∧
    (¬ InRange s a → writeRaw a v s = .error .outOfRangeAddress ∧ setLabel a name s = .error .outOfRangeAddress)

/-- `load_example` takes the three names and no other; it leaves the program's cells from address 0, 0 above them, and
its labels (R38). The spec's choices in it: the cursor cleared D21 (log 23), the example programs D30 (log 21). The
model's own: what happens where the program does not fit (log 21). -/
def Obligations.LoadExampleBuildsTheProgram : Prop :=
  (∀ (s : State) (name : String), name ∉ ["suma", "resta", "bucle"] → loadExample name s = .error .unknownExample) ∧
    ∀ (s : State) (name : String) (e : ExampleProgram),
      (name, e) ∈ [("suma", s.config.examples.suma), ("resta", s.config.examples.resta), ("bucle", s.config.examples.bucle)] →
      e.cells.length ≤ s.config.memSize →
      ∃ t, loadExample name s = .ok t ∧ (∀ k, readCell t k = e.cells.getD k 0) ∧
        (∀ a, Labels.find t.labels a ≠ none ↔ ∃ l ∈ e.labels, l.1 = a) ∧ t.cursor = 0 ∧
        t.config = s.config ∧ t.runState = s.runState ∧ t.pc = s.pc ∧ t.acc = s.acc ∧ t.z = s.z ∧
        t.trace = s.trace ∧ t.output = s.output ∧ t.stepCount = s.stepCount

/-- Every load command keeps the store sound and no register, output, record or parameter changes; and a run started on
a sound store starts sound (R34 to R39). The spec's choices in it: a Word of WORD_WIDTH bits D1 (log 5), registers set
at every run start D19 (log 23), the cursor cleared D21 (log 23), a label out of range rejected D24 (log 20), a
load-time value that is no Word rejected D26 (log 20). The model's own: the cell and label lists (log 1, log 24), the
fit check of load_example (log 21). -/
def Obligations.LoadingKeepsTheStoreSound : Prop :=
  (∀ (c : LoadCommand) (s t : State), StoreInv s → loadCommand c s = .ok t →
      StoreInv t ∧ t = { s with mem := t.mem, labels := t.labels, cursor := t.cursor }) ∧
    (∀ s : State, StoreInv s → StoreInv (clearStore s) ∧ StoreInv (postRunClear s)) ∧
    ∀ s : State, StoreInv s → RunInv (startRun s)
end

