-- ==== Sys2Proof/Laws/Alu.lean ====
section
/-! SUPPORT. The alu_integer: wrapping answers the one Word congruent to the exact result modulo 2^W. -/

namespace Sys2Proof

theorem isWord_zero (w : Nat) : IsWord w 0 := by
  have : (0 : Int) < 2 ^ (w - 1) := by positivity
  exact ⟨by omega, by omega⟩

end Sys2Proof

namespace Sys2Proof.Machine

theorem two_pow_width {w : Nat} (h : 1 ≤ w) : (2 : Int) ^ w = 2 * 2 ^ (w - 1) := by
  obtain ⟨k, rfl⟩ := Nat.exists_eq_add_of_le' h
  rw [Nat.add_sub_cancel, pow_succ, mul_comm]

/-- Wrapping answers a Word. -/
theorem wrapWord_isWord {w : Nat} (h : 1 ≤ w) (v : Int) : IsWord w (wrapWord w v) := by
  have hp : (0 : Int) < 2 ^ (w - 1) := by positivity
  have hw := two_pow_width h
  have h1 := Int.emod_nonneg (v + 2 ^ (w - 1)) (show (2 : Int) ^ w ≠ 0 by omega)
  have h2 := Int.emod_lt_of_pos (v + 2 ^ (w - 1)) (show (0 : Int) < 2 ^ w by omega)
  rw [wrapWord]
  exact ⟨by omega, by omega⟩

/-- Wrapping changes the exact result by a multiple of 2^W. -/
theorem wrapWord_congr (w : Nat) (v : Int) : (2 : Int) ^ w ∣ v - wrapWord w v := by
  refine ⟨(v + 2 ^ (w - 1)) / 2 ^ w, ?_⟩
  have := Int.mul_ediv_add_emod (v + 2 ^ (w - 1)) (2 ^ w)
  rw [wrapWord]
  omega

/-- There is no other Word congruent to the exact result. -/
theorem wrapWord_unique {w : Nat} (h : 1 ≤ w) {v x : Int} (hx : IsWord w x) (hd : (2 : Int) ^ w ∣ v - x) :
    wrapWord w v = x := by
  obtain ⟨k, hk⟩ := hd
  have hw := two_pow_width h
  obtain ⟨h1, h2⟩ := hx
  rw [wrapWord, show v + 2 ^ (w - 1) = x + 2 ^ (w - 1) + 2 ^ w * k by omega, Int.add_mul_emod_self_left,
    Int.emod_eq_of_lt] <;> omega

/-- A Word is kept by wrapping. -/
theorem wrapWord_of_isWord {w : Nat} (h : 1 ≤ w) {v : Int} (hv : IsWord w v) : wrapWord w v = v :=
  wrapWord_unique h hv (by simp)

/-- Narrowing answers the wrapped result, the exact one where it is a Word, or nothing (R65). -/
theorem narrow_cases (c : Config) (v : Int) :
    (c.overflowPolicy = .wrap ∧ narrow c v = some (wrapWord c.wordWidth v)) ∨
    (c.overflowPolicy = .fault ∧ IsWord c.wordWidth v ∧ narrow c v = some v) ∨
    (c.overflowPolicy = .fault ∧ ¬ IsWord c.wordWidth v ∧ narrow c v = none) := by
  unfold narrow
  cases c.overflowPolicy with
  | wrap => exact .inl ⟨rfl, rfl⟩
  | fault =>
    by_cases h : IsWord c.wordWidth v
    · exact .inr (.inl ⟨rfl, h, if_pos h⟩)
    · exact .inr (.inr ⟨rfl, h, if_neg h⟩)

theorem narrow_of_wrap {c : Config} (h : c.overflowPolicy = .wrap) (v : Int) :
    narrow c v = some (wrapWord c.wordWidth v) := by simp only [narrow, h]

theorem narrow_of_not_isWord {c : Config} {v : Int} (h : c.overflowPolicy = .fault) (hv : ¬ IsWord c.wordWidth v) :
    narrow c v = none := by simp only [narrow, h, if_neg hv]

/-- Nothing is answered only under policy fault (R65). -/
theorem fault_of_narrow_eq_none {c : Config} {v : Int} (h : narrow c v = none) : c.overflowPolicy = .fault := by
  rcases narrow_cases c v with ⟨_, e⟩ | ⟨hp, _⟩ | ⟨hp, _⟩
  · cases h.symm.trans e
  · exact hp
  · exact hp

/-- A result that is a Word is answered as it is, under either policy (R65). -/
theorem narrow_of_isWord {c : Config} {v : Int} (hc : 1 ≤ c.wordWidth) (hv : IsWord c.wordWidth v) :
    narrow c v = some v := by
  rcases narrow_cases c v with ⟨_, e⟩ | ⟨_, _, e⟩ | ⟨_, h, _⟩
  · rw [e, wrapWord_of_isWord hc hv]
  · exact e
  · exact absurd hv h

/-- What narrowing answers is a Word. -/
theorem narrow_isWord {c : Config} {v x : Int} (hc : 1 ≤ c.wordWidth) (h : narrow c v = some x) :
    IsWord c.wordWidth x := by
  rcases narrow_cases c v with ⟨_, e⟩ | ⟨_, hv, e⟩ | ⟨_, _, e⟩ <;> cases h.symm.trans e
  · exact wrapWord_isWord hc v
  · exact hv

end Sys2Proof.Machine
end

