-- ==== Sys2Proof/Laws/Decode.lean ====
section
/-! SUPPORT. What the decoder's parts answer. -/

namespace Sys2Proof

theorem Opcode.mem_all (op : Opcode) : op ∈ Opcode.all := by cases op <;> decide

/-- An injective code table tells opcodes apart. -/
theorem OpcodeCodes.code_inj {c : OpcodeCodes} (h : c.Injective) {x y : Opcode} (e : c.code x = c.code y) : x = y :=
  List.inj_on_of_nodup_map h x.mem_all y.mem_all e

theorem OpcodeCodes.listed_injective : OpcodeCodes.listed.Injective := by decide

theorem code_of_decodeOpcode {c : OpcodeCodes} {w : Int} {op : Opcode} (h : decodeOpcode c w = some op) :
    c.code op = w := by simpa using List.find?_some h

/-- A Word is unknown exactly when it is no opcode's code (R42, R45). -/
theorem decodeOpcode_eq_none {c : OpcodeCodes} {w : Int} : decodeOpcode c w = none ↔ ∀ op, c.code op ≠ w := by
  simp only [decodeOpcode, List.find?_eq_none, beq_iff_eq]
  exact ⟨fun h op => h op op.mem_all, fun h op _ => h op⟩

theorem decodeOpcode_code {c : OpcodeCodes} (h : c.Injective) (op : Opcode) : decodeOpcode c (c.code op) = some op := by
  cases e : decodeOpcode c (c.code op) with
  | none => exact absurd rfl (decodeOpcode_eq_none.1 e op)
  | some op' => rw [OpcodeCodes.code_inj h (code_of_decodeOpcode e)]

theorem takeOperand_cons (op : Opcode) (build : Int → Instr) (a : Int) (rest : List Int) :
    takeOperand op build (a :: rest) = .ok (build a, rest) := rfl

/-- What a decoded opcode needs of the cells after it: its operand, if it has one. -/
theorem assemble_ok {op : Opcode} {cells rest : List Int} {i : Instr} :
    assemble op cells = .ok (i, rest) ↔ i.opcode = op ∧ cells = i.operand.toList ++ rest := by
  cases op <;> cases cells <;> cases i <;>
    simp [assemble, takeOperand, Instr.opcode, Instr.operand, eq_comm]

theorem assemble_error {op : Opcode} {cells : List Int} {e : DecodeError} :
    assemble op cells = .error e ↔ op.arity = 1 ∧ cells = [] ∧ e = .noOperandCell op := by
  cases op <;> cases cells <;> simp [assemble, takeOperand, Opcode.arity, eq_comm]

theorem decode_cons_of_none {c : OpcodeCodes} {code : Int} (rest : List Int) (h : decodeOpcode c code = none) :
    decode c (code :: rest) = .error (.unknownOpcode code) := by simp [decode, h]

theorem decode_cons_of_some {c : OpcodeCodes} {code : Int} {op : Opcode} (rest : List Int)
    (h : decodeOpcode c code = some op) : decode c (code :: rest) = assemble op rest := by simp [decode, h]

/-- The operand of an instruction is present exactly when its opcode has arity 1 (R43). -/
theorem Instr.operand_length (i : Instr) : i.operand.toList.length = i.opcode.arity := by cases i <;> rfl

/-- The mnemonic spellings differ from each other (R47). -/
theorem Opcode.mnemonic_inj {x y : Opcode} (h : x.mnemonic = y.mnemonic) : x = y := by
  cases x <;> cases y <;> first | rfl | exact absurd h (by decide)

end Sys2Proof
end

