-- ==== Sys2Proof/Laws/Memory.lean ====
section
/-! SUPPORT. The laws of the cell list and of the label list. -/

namespace Sys2Proof.Machine

@[simp] theorem Memory.unlisted_eq : Memory.unlisted = 0 := rfl

@[simp] theorem Memory.read_nil (a : Nat) : Memory.read [] a = 0 := rfl

@[simp] theorem Memory.read_cons (c : Nat × Int) (m : Memory) (a : Nat) :
    Memory.read (c :: m) a = if a = c.1 then c.2 else Memory.read m a := rfl

theorem Memory.wf_nil : Memory.Wf [] := ⟨.nil, fun _ h => nomatch h⟩

/-- A canonical list's tail is canonical, its head is not what an unlisted cell reads as, and lies below the tail. -/
theorem Memory.wf_cons {c : Nat × Int} {m : Memory} :
    Memory.Wf (c :: m) ↔ (∀ d ∈ m, c.1 < d.1) ∧ c.2 ≠ 0 ∧ Memory.Wf m := by
  unfold Memory.Wf
  rw [List.map_cons, List.pairwise_cons, List.forall_mem_cons, List.forall_mem_map]
  exact ⟨fun ⟨⟨h1, h2⟩, h3, h4⟩ => ⟨h1, h3, h2, h4⟩, fun ⟨h1, h3, h2, h4⟩ => ⟨⟨h1, h2⟩, h3, h4⟩⟩

/-- Below every listed address a memory reads 0. -/
theorem Memory.read_below {m : Memory} {a : Nat} (h : ∀ c ∈ m, a < c.1) : Memory.read m a = 0 := by
  induction m with
  | nil => rfl
  | cons c m ih =>
    have hb : a ≠ c.1 := Nat.ne_of_lt (h c (List.mem_cons_self ..))
    simp [hb, ih fun d hd => h d (List.mem_cons_of_mem _ hd)]

theorem Memory.read_erase (m : Memory) (a b : Nat) :
    Memory.read (Memory.erase m a) b = if b = a then 0 else Memory.read m b := by
  induction m with
  | nil => simp [Memory.erase]
  | cons c m ih =>
    unfold Memory.erase at ih ⊢
    by_cases hc : c.1 = a
    · rw [List.filter_cons_of_neg (by simp [hc]), ih, Memory.read_cons, hc]
      split <;> rfl
    · rw [List.filter_cons_of_pos (by simp [hc]), Memory.read_cons, Memory.read_cons, ih]
      by_cases hb : b = c.1
      · simp [hb, hc]
      · simp [hb]

theorem Memory.read_insert (m : Memory) (a : Nat) (v : Int) (b : Nat) (h : ∀ c ∈ m, c.1 ≠ a) :
    Memory.read (Memory.insert m a v) b = if b = a then v else Memory.read m b := by
  induction m with
  | nil => rfl
  | cons c m ih =>
    have hc : c.1 ≠ a := h c (List.mem_cons_self ..)
    unfold Memory.insert
    split
    · rfl
    · rw [Memory.read_cons, Memory.read_cons, ih fun d hd => h d (List.mem_cons_of_mem _ hd)]
      by_cases hb : b = c.1
      · simp [hb, hc]
      · simp [hb]

theorem Memory.mem_erase {m : Memory} {a : Nat} {c : Nat × Int} (h : c ∈ Memory.erase m a) : c ∈ m ∧ c.1 ≠ a := by
  simpa [Memory.erase] using h

/-- Reading after a write: the written cell, or the old one. -/
theorem Memory.read_write (m : Memory) (a : Nat) (v : Int) (b : Nat) :
    Memory.read (Memory.write m a v) b = if b = a then v else Memory.read m b := by
  unfold Memory.write
  split
  · next hv => rw [Memory.read_erase, hv, Memory.unlisted_eq]
  · rw [Memory.read_insert _ _ _ _ fun c hc => (Memory.mem_erase hc).2, Memory.read_erase]
    split <;> rfl

theorem Memory.mem_insert {m : Memory} {a : Nat} {v : Int} {c : Nat × Int} (h : c ∈ Memory.insert m a v) :
    c = (a, v) ∨ c ∈ m := by
  induction m with
  | nil => exact .inl (List.mem_singleton.1 h)
  | cons d m ih =>
    unfold Memory.insert at h
    split at h
    · exact List.mem_cons.1 h
    · rcases List.mem_cons.1 h with rfl | h
      · exact .inr (List.mem_cons_self ..)
      · exact (ih h).imp_right (List.mem_cons_of_mem _)

/-- Every cell of a written memory is the written one or an old one. -/
theorem Memory.mem_write {m : Memory} {a : Nat} {v : Int} {c : Nat × Int} (h : c ∈ Memory.write m a v) :
    c = (a, v) ∨ c ∈ m := by
  unfold Memory.write at h
  split at h
  · exact .inr (Memory.mem_erase h).1
  · exact (Memory.mem_insert h).imp_right fun h => (Memory.mem_erase h).1

theorem Memory.wf_erase {m : Memory} (a : Nat) (hm : Memory.Wf m) : Memory.Wf (Memory.erase m a) :=
  ⟨hm.1.sublist (List.filter_sublist.map Prod.fst), fun c hc => hm.2 c (Memory.mem_erase hc).1⟩

theorem Memory.wf_insert {m : Memory} {a : Nat} {v : Int} (hm : Memory.Wf m) (h : ∀ c ∈ m, c.1 ≠ a) (hv : v ≠ 0) :
    Memory.Wf (Memory.insert m a v) := by
  induction m with
  | nil => exact Memory.wf_cons.2 ⟨fun _ h => absurd h (List.not_mem_nil), hv, Memory.wf_nil⟩
  | cons c m ih =>
    obtain ⟨hlt, hc, hwf⟩ := Memory.wf_cons.1 hm
    have hca : c.1 ≠ a := h c (List.mem_cons_self ..)
    unfold Memory.insert
    split
    · next hac =>
      refine Memory.wf_cons.2 ⟨fun d hd => ?_, hv, hm⟩
      rcases List.mem_cons.1 hd with rfl | hd
      · exact hac
      · exact hac.trans (hlt d hd)
    · next hac =>
      refine Memory.wf_cons.2 ⟨fun d hd => ?_, hc, ih hwf fun d hd => h d (List.mem_cons_of_mem _ hd)⟩
      rcases Memory.mem_insert hd with rfl | hd
      · show c.1 < a
        omega
      · exact hlt d hd

/-- A write keeps the canonical form. -/
theorem Memory.wf_write {m : Memory} (a : Nat) (v : Int) (hm : Memory.Wf m) : Memory.Wf (Memory.write m a v) := by
  unfold Memory.write
  split
  · exact Memory.wf_erase a hm
  · next hv => exact Memory.wf_insert (Memory.wf_erase a hm) (fun c hc => (Memory.mem_erase hc).2) hv

/-- What holds of every cell and of the written one holds of every cell afterwards. -/
theorem Memory.forall_write {P : Nat × Int → Prop} {m : Memory} {a : Nat} {v : Int} (hm : ∀ c ∈ m, P c)
    (ha : P (a, v)) : ∀ c ∈ Memory.write m a v, P c := fun _ hc =>
  (Memory.mem_write hc).elim (fun e => e ▸ ha) (hm _)

/-- What holds of 0 and of every listed cell's content holds of what any address reads as. -/
theorem Memory.forall_read {P : Int → Prop} {m : Memory} (h0 : P 0) (hm : ∀ c ∈ m, P c.2) (a : Nat) :
    P (Memory.read m a) := by
  induction m with
  | nil => exact h0
  | cons c m ih =>
    rw [Memory.read_cons]
    split
    · exact hm c (List.mem_cons_self ..)
    · exact ih fun d hd => hm d (List.mem_cons_of_mem _ hd)

@[simp] theorem Labels.find_nil (a : Nat) : Labels.find [] a = none := rfl

@[simp] theorem Labels.find_cons (b : Nat) (t : String) (l : Labels) (a : Nat) :
    Labels.find ((b, t) :: l) a = if a = b then some t else Labels.find l a := rfl

theorem Labels.wf_cons {b : Nat} {t : String} {l : Labels} :
    Labels.Wf ((b, t) :: l) ↔ (∀ c ∈ l, b < c.1) ∧ Labels.Wf l := by
  simp only [Labels.Wf, List.map_cons, List.pairwise_cons, List.mem_map, forall_exists_index, and_imp]
  exact and_congr_left' ⟨fun h c hc => h c.1 c hc rfl, fun h _ c hc he => he ▸ h c hc⟩

/-- Every label of a set list is the new one or an old one. -/
theorem Labels.mem_set {l : Labels} {a : Nat} {t : String} {c : Nat × String} (h : c ∈ Labels.set l a t) :
    c = (a, t) ∨ c ∈ l := by
  induction l with
  | nil => exact .inl (List.mem_singleton.1 h)
  | cons d l ih =>
    obtain ⟨b, u⟩ := d
    unfold Labels.set at h
    split at h
    · exact List.mem_cons.1 h
    · split at h
      · exact (List.mem_cons.1 h).imp_right (List.mem_cons_of_mem _)
      · rcases List.mem_cons.1 h with rfl | h
        · exact .inr (List.mem_cons_self ..)
        · exact (ih h).imp_right (List.mem_cons_of_mem _)

/-- Looking up after attaching a label: the new one, or the old ones. -/
theorem Labels.find_set (l : Labels) (a : Nat) (t : String) (b : Nat) :
    Labels.find (Labels.set l a t) b = if b = a then some t else Labels.find l b := by
  induction l with
  | nil => rfl
  | cons d l ih =>
    obtain ⟨c, u⟩ := d
    unfold Labels.set
    split
    · rfl
    · split
      · next hac =>
        subst hac
        simp only [Labels.find_cons]
        split <;> rfl
      · next h1 h2 =>
        simp only [Labels.find_cons, ih]
        split
        · next hb => rw [if_neg (by omega)]
        · rfl

/-- Attaching a label keeps the canonical form. -/
theorem Labels.wf_set {l : Labels} (a : Nat) (t : String) (hl : Labels.Wf l) : Labels.Wf (Labels.set l a t) := by
  induction l with
  | nil => exact Labels.wf_cons.2 ⟨fun _ h => absurd h (List.not_mem_nil), List.Pairwise.nil⟩
  | cons d l ih =>
    obtain ⟨b, u⟩ := d
    obtain ⟨hlt, hwf⟩ := Labels.wf_cons.1 hl
    unfold Labels.set
    split
    · next hab =>
      refine Labels.wf_cons.2 ⟨fun c hc => ?_, hl⟩
      rcases List.mem_cons.1 hc with rfl | hc
      · exact hab
      · exact hab.trans (hlt c hc)
    · split
      · next hab => exact Labels.wf_cons.2 ⟨hab ▸ hlt, hwf⟩
      · next h1 h2 =>
        refine Labels.wf_cons.2 ⟨fun c hc => ?_, ih hwf⟩
        rcases Labels.mem_set hc with rfl | hc
        · show b < a
          omega
        · exact hlt c hc

theorem Labels.inside_set {l : Labels} {a n : Nat} {t : String} (hl : ∀ c ∈ l, c.1 < n) (ha : a < n) :
    ∀ c ∈ Labels.set l a t, c.1 < n := fun _ hc =>
  (Labels.mem_set hc).elim (fun e => e ▸ ha) (hl _)

end Sys2Proof.Machine
end

