-- ==== Sys2Proof/Laws/State.lean ====
section
/-! SUPPORT. One lemma per field per update of State, and the fields of a retired step. -/

namespace Sys2Proof.Machine

@[simp] theorem writeCell_config (a : Nat) (v : Int) (s : State) : (writeCell a v s).config = s.config := rfl
@[simp] theorem writeCell_runState (a : Nat) (v : Int) (s : State) : (writeCell a v s).runState = s.runState := rfl
@[simp] theorem writeCell_pc (a : Nat) (v : Int) (s : State) : (writeCell a v s).pc = s.pc := rfl
@[simp] theorem writeCell_acc (a : Nat) (v : Int) (s : State) : (writeCell a v s).acc = s.acc := rfl
@[simp] theorem writeCell_z (a : Nat) (v : Int) (s : State) : (writeCell a v s).z = s.z := rfl
@[simp] theorem writeCell_stepCount (a : Nat) (v : Int) (s : State) : (writeCell a v s).stepCount = s.stepCount := rfl
@[simp] theorem writeCell_mem (a : Nat) (v : Int) (s : State) : (writeCell a v s).mem = Memory.write s.mem a v := rfl
@[simp] theorem writeCell_output (a : Nat) (v : Int) (s : State) : (writeCell a v s).output = s.output := rfl
@[simp] theorem writeCell_trace (a : Nat) (v : Int) (s : State) : (writeCell a v s).trace = s.trace := rfl
@[simp] theorem writeCell_labels (a : Nat) (v : Int) (s : State) : (writeCell a v s).labels = s.labels := rfl
@[simp] theorem writeCell_cursor (a : Nat) (v : Int) (s : State) : (writeCell a v s).cursor = s.cursor := rfl

@[simp] theorem writeAcc_config (v : Int) (s : State) : (writeAcc v s).config = s.config := rfl
@[simp] theorem writeAcc_runState (v : Int) (s : State) : (writeAcc v s).runState = s.runState := rfl
@[simp] theorem writeAcc_pc (v : Int) (s : State) : (writeAcc v s).pc = s.pc := rfl
@[simp] theorem writeAcc_acc (v : Int) (s : State) : (writeAcc v s).acc = v := rfl
@[simp] theorem writeAcc_z (v : Int) (s : State) : (writeAcc v s).z = zero v := rfl
@[simp] theorem writeAcc_stepCount (v : Int) (s : State) : (writeAcc v s).stepCount = s.stepCount := rfl
@[simp] theorem writeAcc_mem (v : Int) (s : State) : (writeAcc v s).mem = s.mem := rfl
@[simp] theorem writeAcc_output (v : Int) (s : State) : (writeAcc v s).output = s.output := rfl
@[simp] theorem writeAcc_trace (v : Int) (s : State) : (writeAcc v s).trace = s.trace := rfl
@[simp] theorem writeAcc_labels (v : Int) (s : State) : (writeAcc v s).labels = s.labels := rfl
@[simp] theorem writeAcc_cursor (v : Int) (s : State) : (writeAcc v s).cursor = s.cursor := rfl

@[simp] theorem advance_config (op : Opcode) (s : State) : (advance op s).config = s.config := rfl
@[simp] theorem advance_runState (op : Opcode) (s : State) : (advance op s).runState = s.runState := rfl
@[simp] theorem advance_pc (op : Opcode) (s : State) : (advance op s).pc = s.pc + op.length := rfl
@[simp] theorem advance_acc (op : Opcode) (s : State) : (advance op s).acc = s.acc := rfl
@[simp] theorem advance_z (op : Opcode) (s : State) : (advance op s).z = s.z := rfl
@[simp] theorem advance_stepCount (op : Opcode) (s : State) : (advance op s).stepCount = s.stepCount := rfl
@[simp] theorem advance_mem (op : Opcode) (s : State) : (advance op s).mem = s.mem := rfl
@[simp] theorem advance_output (op : Opcode) (s : State) : (advance op s).output = s.output := rfl
@[simp] theorem advance_trace (op : Opcode) (s : State) : (advance op s).trace = s.trace := rfl
@[simp] theorem advance_labels (op : Opcode) (s : State) : (advance op s).labels = s.labels := rfl
@[simp] theorem advance_cursor (op : Opcode) (s : State) : (advance op s).cursor = s.cursor := rfl

@[simp] theorem jumpTo_config (a : Nat) (s : State) : (jumpTo a s).config = s.config := rfl
@[simp] theorem jumpTo_runState (a : Nat) (s : State) : (jumpTo a s).runState = s.runState := rfl
@[simp] theorem jumpTo_pc (a : Nat) (s : State) : (jumpTo a s).pc = a := rfl
@[simp] theorem jumpTo_acc (a : Nat) (s : State) : (jumpTo a s).acc = s.acc := rfl
@[simp] theorem jumpTo_z (a : Nat) (s : State) : (jumpTo a s).z = s.z := rfl
@[simp] theorem jumpTo_stepCount (a : Nat) (s : State) : (jumpTo a s).stepCount = s.stepCount := rfl
@[simp] theorem jumpTo_mem (a : Nat) (s : State) : (jumpTo a s).mem = s.mem := rfl
@[simp] theorem jumpTo_output (a : Nat) (s : State) : (jumpTo a s).output = s.output := rfl
@[simp] theorem jumpTo_trace (a : Nat) (s : State) : (jumpTo a s).trace = s.trace := rfl
@[simp] theorem jumpTo_labels (a : Nat) (s : State) : (jumpTo a s).labels = s.labels := rfl
@[simp] theorem jumpTo_cursor (a : Nat) (s : State) : (jumpTo a s).cursor = s.cursor := rfl

@[simp] theorem out_config (v : Int) (s : State) : (out v s).config = s.config := rfl
@[simp] theorem out_runState (v : Int) (s : State) : (out v s).runState = s.runState := rfl
@[simp] theorem out_pc (v : Int) (s : State) : (out v s).pc = s.pc := rfl
@[simp] theorem out_acc (v : Int) (s : State) : (out v s).acc = s.acc := rfl
@[simp] theorem out_z (v : Int) (s : State) : (out v s).z = s.z := rfl
@[simp] theorem out_stepCount (v : Int) (s : State) : (out v s).stepCount = s.stepCount := rfl
@[simp] theorem out_mem (v : Int) (s : State) : (out v s).mem = s.mem := rfl
@[simp] theorem out_output (v : Int) (s : State) : (out v s).output = s.output ++ [v] := rfl
@[simp] theorem out_trace (v : Int) (s : State) : (out v s).trace = s.trace := rfl
@[simp] theorem out_labels (v : Int) (s : State) : (out v s).labels = s.labels := rfl
@[simp] theorem out_cursor (v : Int) (s : State) : (out v s).cursor = s.cursor := rfl

@[simp] theorem emit_config (r : StepRecord) (s : State) : (emit r s).config = s.config := rfl
@[simp] theorem emit_runState (r : StepRecord) (s : State) : (emit r s).runState = s.runState := rfl
@[simp] theorem emit_pc (r : StepRecord) (s : State) : (emit r s).pc = s.pc := rfl
@[simp] theorem emit_acc (r : StepRecord) (s : State) : (emit r s).acc = s.acc := rfl
@[simp] theorem emit_z (r : StepRecord) (s : State) : (emit r s).z = s.z := rfl
@[simp] theorem emit_stepCount (r : StepRecord) (s : State) : (emit r s).stepCount = s.stepCount + 1 := rfl
@[simp] theorem emit_mem (r : StepRecord) (s : State) : (emit r s).mem = s.mem := rfl
@[simp] theorem emit_output (r : StepRecord) (s : State) : (emit r s).output = s.output := rfl
@[simp] theorem emit_trace (r : StepRecord) (s : State) : (emit r s).trace = s.trace ++ [r] := rfl
@[simp] theorem emit_labels (r : StepRecord) (s : State) : (emit r s).labels = s.labels := rfl
@[simp] theorem emit_cursor (r : StepRecord) (s : State) : (emit r s).cursor = s.cursor := rfl

@[simp] theorem haltRun_config (s : State) : (haltRun s).config = s.config := rfl
@[simp] theorem haltRun_runState (s : State) : (haltRun s).runState = .halted := rfl
@[simp] theorem haltRun_pc (s : State) : (haltRun s).pc = s.pc := rfl
@[simp] theorem haltRun_acc (s : State) : (haltRun s).acc = s.acc := rfl
@[simp] theorem haltRun_z (s : State) : (haltRun s).z = s.z := rfl
@[simp] theorem haltRun_stepCount (s : State) : (haltRun s).stepCount = s.stepCount := rfl
@[simp] theorem haltRun_mem (s : State) : (haltRun s).mem = s.mem := rfl
@[simp] theorem haltRun_output (s : State) : (haltRun s).output = s.output := rfl
@[simp] theorem haltRun_trace (s : State) : (haltRun s).trace = s.trace := rfl
@[simp] theorem haltRun_labels (s : State) : (haltRun s).labels = s.labels := rfl
@[simp] theorem haltRun_cursor (s : State) : (haltRun s).cursor = s.cursor := rfl

@[simp] theorem abort_config (k : AddressKind) (a : Int) (s : State) : (abort k a s).config = s.config := rfl
@[simp] theorem abort_runState (k : AddressKind) (a : Int) (s : State) : (abort k a s).runState = .abortedFatal (.outOfRangeAddress k a) := rfl
@[simp] theorem abort_pc (k : AddressKind) (a : Int) (s : State) : (abort k a s).pc = s.pc := rfl
@[simp] theorem abort_acc (k : AddressKind) (a : Int) (s : State) : (abort k a s).acc = s.acc := rfl
@[simp] theorem abort_z (k : AddressKind) (a : Int) (s : State) : (abort k a s).z = s.z := rfl
@[simp] theorem abort_stepCount (k : AddressKind) (a : Int) (s : State) : (abort k a s).stepCount = s.stepCount := rfl
@[simp] theorem abort_mem (k : AddressKind) (a : Int) (s : State) : (abort k a s).mem = s.mem := rfl
@[simp] theorem abort_output (k : AddressKind) (a : Int) (s : State) : (abort k a s).output = s.output := rfl
@[simp] theorem abort_trace (k : AddressKind) (a : Int) (s : State) : (abort k a s).trace = s.trace := rfl
@[simp] theorem abort_labels (k : AddressKind) (a : Int) (s : State) : (abort k a s).labels = s.labels := rfl
@[simp] theorem abort_cursor (k : AddressKind) (a : Int) (s : State) : (abort k a s).cursor = s.cursor := rfl

@[simp] theorem stopUnknown_config (c : Int) (s : State) : (stopUnknown c s).config = s.config := rfl
@[simp] theorem stopUnknown_runState (c : Int) (s : State) : (stopUnknown c s).runState = .stoppedUnknownOpcode := rfl
@[simp] theorem stopUnknown_pc (c : Int) (s : State) : (stopUnknown c s).pc = s.pc := rfl
@[simp] theorem stopUnknown_acc (c : Int) (s : State) : (stopUnknown c s).acc = s.acc := rfl
@[simp] theorem stopUnknown_z (c : Int) (s : State) : (stopUnknown c s).z = s.z := rfl
@[simp] theorem stopUnknown_stepCount (c : Int) (s : State) : (stopUnknown c s).stepCount = s.stepCount + 1 := rfl
@[simp] theorem stopUnknown_mem (c : Int) (s : State) : (stopUnknown c s).mem = s.mem := rfl
@[simp] theorem stopUnknown_output (c : Int) (s : State) : (stopUnknown c s).output = s.output := rfl
@[simp] theorem stopUnknown_trace (c : Int) (s : State) : (stopUnknown c s).trace = s.trace ++ [unknownRecord c s] := rfl
@[simp] theorem stopUnknown_labels (c : Int) (s : State) : (stopUnknown c s).labels = s.labels := rfl
@[simp] theorem stopUnknown_cursor (c : Int) (s : State) : (stopUnknown c s).cursor = s.cursor := rfl

@[simp] theorem expireGuard_config (s : State) : (expireGuard s).config = s.config := rfl
@[simp] theorem expireGuard_runState (s : State) : (expireGuard s).runState = .guardExpired := rfl
@[simp] theorem expireGuard_pc (s : State) : (expireGuard s).pc = s.pc := rfl
@[simp] theorem expireGuard_acc (s : State) : (expireGuard s).acc = s.acc := rfl
@[simp] theorem expireGuard_z (s : State) : (expireGuard s).z = s.z := rfl
@[simp] theorem expireGuard_stepCount (s : State) : (expireGuard s).stepCount = s.stepCount := rfl
@[simp] theorem expireGuard_mem (s : State) : (expireGuard s).mem = s.mem := rfl
@[simp] theorem expireGuard_output (s : State) : (expireGuard s).output = s.output := rfl
@[simp] theorem expireGuard_trace (s : State) : (expireGuard s).trace = s.trace := rfl
@[simp] theorem expireGuard_labels (s : State) : (expireGuard s).labels = s.labels := rfl
@[simp] theorem expireGuard_cursor (s : State) : (expireGuard s).cursor = s.cursor := rfl

@[simp] theorem startRun_config (s : State) : (startRun s).config = s.config := rfl
@[simp] theorem startRun_runState (s : State) : (startRun s).runState = .running := rfl
@[simp] theorem startRun_pc (s : State) : (startRun s).pc = 0 := rfl
@[simp] theorem startRun_acc (s : State) : (startRun s).acc = 0 := rfl
@[simp] theorem startRun_z (s : State) : (startRun s).z = false := rfl
@[simp] theorem startRun_stepCount (s : State) : (startRun s).stepCount = 0 := rfl
@[simp] theorem startRun_mem (s : State) : (startRun s).mem = s.mem := rfl
@[simp] theorem startRun_output (s : State) : (startRun s).output = [] := rfl
@[simp] theorem startRun_trace (s : State) : (startRun s).trace = [] := rfl
@[simp] theorem startRun_labels (s : State) : (startRun s).labels = s.labels := rfl
@[simp] theorem startRun_cursor (s : State) : (startRun s).cursor = s.cursor := rfl

@[simp] theorem clearStore_config (s : State) : (clearStore s).config = s.config := rfl
@[simp] theorem clearStore_runState (s : State) : (clearStore s).runState = s.runState := rfl
@[simp] theorem clearStore_pc (s : State) : (clearStore s).pc = s.pc := rfl
@[simp] theorem clearStore_acc (s : State) : (clearStore s).acc = s.acc := rfl
@[simp] theorem clearStore_z (s : State) : (clearStore s).z = s.z := rfl
@[simp] theorem clearStore_stepCount (s : State) : (clearStore s).stepCount = s.stepCount := rfl
@[simp] theorem clearStore_mem (s : State) : (clearStore s).mem = [] := rfl
@[simp] theorem clearStore_output (s : State) : (clearStore s).output = s.output := rfl
@[simp] theorem clearStore_trace (s : State) : (clearStore s).trace = s.trace := rfl
@[simp] theorem clearStore_labels (s : State) : (clearStore s).labels = [] := rfl
@[simp] theorem clearStore_cursor (s : State) : (clearStore s).cursor = 0 := rfl

@[simp] theorem postRunClear_config (s : State) : (postRunClear s).config = s.config := rfl
@[simp] theorem postRunClear_runState (s : State) : (postRunClear s).runState = s.runState := rfl
@[simp] theorem postRunClear_pc (s : State) : (postRunClear s).pc = s.pc := rfl
@[simp] theorem postRunClear_acc (s : State) : (postRunClear s).acc = s.acc := rfl
@[simp] theorem postRunClear_z (s : State) : (postRunClear s).z = s.z := rfl
@[simp] theorem postRunClear_stepCount (s : State) : (postRunClear s).stepCount = s.stepCount := rfl
@[simp] theorem postRunClear_mem (s : State) : (postRunClear s).mem = [] := rfl
@[simp] theorem postRunClear_output (s : State) : (postRunClear s).output = s.output := rfl
@[simp] theorem postRunClear_trace (s : State) : (postRunClear s).trace = [] := rfl
@[simp] theorem postRunClear_labels (s : State) : (postRunClear s).labels = [] := rfl
@[simp] theorem postRunClear_cursor (s : State) : (postRunClear s).cursor = 0 := rfl

@[simp] theorem retire_config (op : Opcode) (o : Option Nat) (s t : State) : (retire op o s t).config = t.config := rfl
@[simp] theorem retire_runState (op : Opcode) (o : Option Nat) (s t : State) : (retire op o s t).runState = t.runState := rfl
@[simp] theorem retire_pc (op : Opcode) (o : Option Nat) (s t : State) : (retire op o s t).pc = t.pc := rfl
@[simp] theorem retire_acc (op : Opcode) (o : Option Nat) (s t : State) : (retire op o s t).acc = t.acc := rfl
@[simp] theorem retire_z (op : Opcode) (o : Option Nat) (s t : State) : (retire op o s t).z = t.z := rfl
@[simp] theorem retire_stepCount (op : Opcode) (o : Option Nat) (s t : State) : (retire op o s t).stepCount = t.stepCount + 1 := rfl
@[simp] theorem retire_mem (op : Opcode) (o : Option Nat) (s t : State) : (retire op o s t).mem = t.mem := rfl
@[simp] theorem retire_output (op : Opcode) (o : Option Nat) (s t : State) : (retire op o s t).output = t.output := rfl
@[simp] theorem retire_trace (op : Opcode) (o : Option Nat) (s t : State) : (retire op o s t).trace = t.trace ++ [recordOf op o s t] := rfl
@[simp] theorem retire_labels (op : Opcode) (o : Option Nat) (s t : State) : (retire op o s t).labels = t.labels := rfl
@[simp] theorem retire_cursor (op : Opcode) (o : Option Nat) (s t : State) : (retire op o s t).cursor = t.cursor := rfl

@[simp] theorem recordOf_pc (op : Opcode) (o : Option Nat) (s t : State) : (recordOf op o s t).pc = s.pc := rfl
@[simp] theorem recordOf_opcode (op : Opcode) (o : Option Nat) (s t : State) : (recordOf op o s t).opcode = .known op := rfl
@[simp] theorem recordOf_operand (op : Opcode) (o : Option Nat) (s t : State) : (recordOf op o s t).operand = o := rfl
@[simp] theorem recordOf_acc (op : Opcode) (o : Option Nat) (s t : State) : (recordOf op o s t).acc = t.acc := rfl
@[simp] theorem recordOf_z (op : Opcode) (o : Option Nat) (s t : State) : (recordOf op o s t).z = t.z := rfl
@[simp] theorem unknownRecord_pc (c : Int) (s : State) : (unknownRecord c s).pc = s.pc := rfl
@[simp] theorem unknownRecord_opcode (c : Int) (s : State) : (unknownRecord c s).opcode = .unknown c := rfl
@[simp] theorem unknownRecord_operand (c : Int) (s : State) : (unknownRecord c s).operand = none := rfl
@[simp] theorem unknownRecord_acc (c : Int) (s : State) : (unknownRecord c s).acc = s.acc := rfl
@[simp] theorem unknownRecord_z (c : Int) (s : State) : (unknownRecord c s).z = s.z := rfl

end Sys2Proof.Machine
end

