-- ==== Sys2Proof/Laws/Ops.lean ====
section
/-! SUPPORT. What each shared operation answers. -/

namespace Sys2Proof.Machine

/-- R25. -/
theorem inRange_iff {n : Nat} {a : Int} : inRange n a = true ↔ 0 ≤ a ∧ a < n := by
  simp [inRange]

theorem cellAddress_of_inRange {s : State} {a : Int} (h : InRange s a) :
    cellAddress s.config.memSize a = some a.toNat := if_pos (inRange_iff.2 h)

theorem cellAddress_of_not_inRange {s : State} {a : Int} (h : ¬ InRange s a) :
    cellAddress s.config.memSize a = none := if_neg fun e => h (inRange_iff.1 e)

theorem cellAddress_eq_some {n : Nat} {a : Int} {k : Nat} :
    cellAddress n a = some k ↔ (0 ≤ a ∧ a < n) ∧ k = a.toNat := by
  rw [cellAddress, Option.ite_none_right_eq_some, inRange_iff, Option.some.injEq, eq_comm (a := k)]

theorem toNat_lt_memSize {s : State} {a : Int} (h : InRange s a) : a.toNat < s.config.memSize := by
  obtain ⟨h0, h1⟩ := h
  omega

theorem memRead_of_inRange {s : State} {a : Int} (h : InRange s a) : memRead s a = some (readCell s a.toNat) := by
  rw [memRead, cellAddress_of_inRange h, Option.map_some]

theorem memRead_of_not_inRange {s : State} {a : Int} (h : ¬ InRange s a) : memRead s a = none := by
  rw [memRead, cellAddress_of_not_inRange h, Option.map_none]

theorem memWrite_of_inRange {s : State} {a v : Int} (h : InRange s a) :
    memWrite a v s = some (writeCell a.toNat v s) := by
  rw [memWrite, cellAddress_of_inRange h, Option.map_some]

theorem memWrite_of_not_inRange {s : State} {a v : Int} (h : ¬ InRange s a) : memWrite a v s = none := by
  rw [memWrite, cellAddress_of_not_inRange h, Option.map_none]

/-- Reading a cell after a cell was written: the only law of memory the meanings need. -/
theorem readCell_writeCell (a : Nat) (v : Int) (s : State) (b : Nat) :
    readCell (writeCell a v s) b = if b = a then v else readCell s b := Memory.read_write s.mem a v b

theorem readCell_congr {s t : State} (h : t.mem = s.mem) (b : Nat) : readCell t b = readCell s b := by
  rw [readCell, readCell, h]

/-- A sound store reads a Word at every address (R14, R26). -/
theorem StoreInv.readCell_isWord {s : State} (h : StoreInv s) (a : Nat) : IsWord s.config.wordWidth (readCell s a) :=
  Memory.forall_read (isWord_zero _) h.mem_words a

theorem operandAddress_of_inRange {s : State} {a : Int} (h : InRange s a) :
    operandAddress s a = some a.toNat := cellAddress_of_inRange h

theorem operandAddress_of_not_inRange {s : State} {a : Int} (h : ¬ InRange s a) : operandAddress s a = none :=
  cellAddress_of_not_inRange h

/-- The operand check passes: the instruction executes on the address (R54). -/
theorem withOperand_of_inRange {s : State} {a : Int} (f : Nat → Result) (h : InRange s a) :
    withOperand a s f = f a.toNat := by simp only [withOperand, operandAddress_of_inRange h]

/-- The operand check fails: the step aborts (R54, R58). -/
theorem withOperand_of_not_inRange {s : State} {a : Int} (f : Nat → Result) (h : ¬ InRange s a) :
    withOperand a s f = .next (abort .operandAddress a s) := by
  simp only [withOperand, operandAddress_of_not_inRange h]

theorem abort_eq_withAbort (k : AddressKind) (a : Int) (s : State) : abort k a s = withAbort k a s := rfl

/-- A retired step is `withRecord`, with the description the model's free value gives. -/
theorem retire_eq_withRecord (op : Opcode) (o : Option Nat) (s t : State) :
    retire op o s t = withRecord s.pc op o (recordOf op o s t).description t := rfl

/-- Cells placed from address `a`: what each address reads as afterwards. -/
theorem readCell_placeCells (cells : List Int) (a : Nat) (s : State) (b : Nat) :
    readCell (placeCells a cells s) b = if a ≤ b then (cells[b - a]?).getD (readCell s b) else readCell s b := by
  induction cells generalizing a s with
  | nil => simp [placeCells]
  | cons v rest ih =>
    rw [placeCells, ih, readCell_writeCell]
    by_cases h1 : a + 1 ≤ b
    · rw [if_pos h1, if_pos (show a ≤ b by omega), if_neg (show ¬ b = a by omega),
        show b - a = (b - (a + 1)) + 1 by omega, List.getElem?_cons_succ]
    · rw [if_neg h1]
      by_cases h2 : b = a
      · simp [h2]
      · rw [if_neg h2, if_neg (show ¬ a ≤ b by omega)]

/-- Placing cells changes memory only. -/
theorem placeCells_eq (cells : List Int) (a : Nat) (s : State) :
    placeCells a cells s = { s with mem := (placeCells a cells s).mem } := by
  induction cells generalizing a s with
  | nil => rfl
  | cons v rest ih => rw [placeCells, ih]; rfl

theorem wf_placeCells (cells : List Int) (a : Nat) (s : State) (h : Memory.Wf s.mem) :
    Memory.Wf (placeCells a cells s).mem := by
  induction cells generalizing a s with
  | nil => exact h
  | cons v rest ih => exact ih _ _ (Memory.wf_write a v h)

/-- What holds of every cell and of the placed ones holds of every cell afterwards. -/
theorem forall_placeCells {P : Nat × Int → Prop} (cells : List Int) (a : Nat) (s : State) (h : ∀ c ∈ s.mem, P c)
    (hp : ∀ b v, v ∈ cells → a ≤ b → b < a + cells.length → P (b, v)) : ∀ c ∈ (placeCells a cells s).mem, P c := by
  induction cells generalizing a s with
  | nil => exact h
  | cons v rest ih =>
    rw [List.length_cons] at hp
    refine ih (a + 1) (writeCell a v s) (Memory.forall_write h (hp a v (List.mem_cons_self ..) le_rfl (by omega))) ?_
    exact fun b w hw h1 h2 => hp b w (List.mem_cons_of_mem _ hw) (by omega) (by omega)

end Sys2Proof.Machine
end

