-- ==== Sys2Proof/Laws/Exec.lean ====
section
/-! SUPPORT. What one executed instruction does to the state, said once; proofs cite `exec_cases`. -/

namespace Sys2Proof.Machine

/-- `Effect i s u`: on a checked operand, instruction `i` takes `s` to `u`, before the record and the count. -/
inductive Effect : Instr → State → State → Prop where
  | halt (s : State) : Effect .halt s (haltRun s)
  | load (a : Int) (s : State) : Effect (.load a) s (advance .load (writeAcc (readCell s a.toNat) s))
  | add (a : Int) (s : State) (v : Int) (h : narrow s.config (s.acc + readCell s a.toNat) = some v) :
    Effect (.add a) s (advance .add (writeAcc v s))
  | store (a : Int) (s : State) : Effect (.store a) s (advance .store (writeCell a.toNat s.acc s))
  | print (s : State) : Effect .print s (advance .print (out s.acc s))
  | sub (a : Int) (s : State) (v : Int) (h : narrow s.config (s.acc - readCell s a.toNat) = some v) :
    Effect (.sub a) s (advance .sub (writeAcc v s))
  | jmp (a : Int) (s : State) : Effect (.jmp a) s (jumpTo a.toNat s)
  | jzTaken (a : Int) (s : State) (h : s.z = true) : Effect (.jz a) s (jumpTo a.toNat s)
  | jzNot (a : Int) (s : State) (h : s.z = false) : Effect (.jz a) s (advance .jz s)
  | nop (s : State) : Effect .nop s (advance .nop s)

/-- What no effect touches, before the record and the count. -/
theorem Effect.keeps {i : Instr} {s u : State} (h : Effect i s u) :
    u.config = s.config ∧ u.labels = s.labels ∧ u.cursor = s.cursor ∧ u.trace = s.trace ∧
      u.stepCount = s.stepCount := by cases h <;> exact ⟨rfl, rfl, rfl, rfl, rfl⟩

/-- An effect on a sound store leaves a Word in ACC. -/
theorem Effect.acc_isWord {i : Instr} {s u : State} (h : Effect i s u) (hs : StoreInv s)
    (ha : IsWord s.config.wordWidth s.acc) : IsWord s.config.wordWidth u.acc := by
  cases h with
  | load a => exact hs.readCell_isWord a.toNat
  | add a _ _ hn | sub a _ _ hn => exact narrow_isWord hs.config_wf.1 hn
  | halt | store | print | jmp | jzTaken | jzNot | nop => exact ha

/-- The end of a step that executed `i`. -/
def retired (i : Instr) (s u : State) : State := retire i.opcode (i.operand.map Int.toNat) s u

/-- Addition and subtraction's end, by the alu's answer. -/
theorem finishArithmetic_some (op : Opcode) (n : Nat) (v : Int) (s : State) :
    finishArithmetic op n (some v) s = .next (retire op (some n) s (advance op (writeAcc v s))) := rfl

/-- An operand out of range aborts, whatever the instruction (R54). -/
theorem exec_of_not_inRange {i : Instr} {s : State} {a : Int} (ho : i.operand = some a) (h : ¬ InRange s a) :
    exec i s = .next (abort .operandAddress a s) := by
  cases i <;> cases ho <;> exact withOperand_of_not_inRange _ h

/-- Well-formed means: the operand, if there is one, is in range. -/
theorem wellFormed_iff {i : Instr} {n : Nat} :
    i.WellFormed n ↔ ∀ a, i.operand = some a → 0 ≤ a ∧ a < n := by
  rw [Instr.WellFormed, Option.all_eq_true]
  exact forall₂_congr fun _ _ => inRange_iff

theorem inRange_of_wellFormed {i : Instr} {s : State} {a : Int} (h : i.WellFormed s.config.memSize)
    (ho : i.operand = some a) : InRange s a := wellFormed_iff.1 h a ho

theorem wellFormed_of_inRange {i : Instr} {s : State} {a : Int} (ho : i.operand = some a) (h : InRange s a) :
    i.WellFormed s.config.memSize := wellFormed_iff.2 fun _ hb => Option.some.inj (ho.symm.trans hb) ▸ h

theorem wellFormed_of_no_operand {i : Instr} {n : Nat} (ho : i.operand = none) : i.WellFormed n :=
  wellFormed_iff.2 fun _ hb => absurd (ho.symm.trans hb) (by simp)

/-- Everything an instruction can answer: the abort of its operand check, its effect with the record and the count, or,
for ADD and SUB under policy fault, the refusal. -/
theorem exec_result (i : Instr) (s : State) :
    (∃ a, i.operand = some a ∧ ¬ InRange s a ∧ exec i s = .next (abort .operandAddress a s)) ∨
    (i.WellFormed s.config.memSize ∧ ∃ u, Effect i s u ∧ exec i s = .next (retired i s u)) ∨
    (exec i s = .refused .arithmeticOverflow ∧ s.config.overflowPolicy = .fault ∧
      (i.opcode = .add ∨ i.opcode = .sub)) := by
  cases ho : i.operand with
  | none =>
    refine .inr (.inl ⟨wellFormed_of_no_operand ho, ?_⟩)
    cases i <;> first | exact ⟨_, .halt s, rfl⟩ | exact ⟨_, .print s, rfl⟩ | exact ⟨_, .nop s, rfl⟩ | cases ho
  | some a =>
    by_cases h : InRange s a
    · refine .inr ?_
      have hw := wellFormed_of_inRange ho h
      cases i with
      | halt | print | nop => cases ho
      | load b =>
        cases ho
        exact .inl ⟨hw, _, .load a s, withOperand_of_inRange _ h⟩
      | store b =>
        cases ho
        exact .inl ⟨hw, _, .store a s, withOperand_of_inRange _ h⟩
      | jmp b =>
        cases ho
        exact .inl ⟨hw, _, .jmp a s, withOperand_of_inRange _ h⟩
      | jz b =>
        cases ho
        refine .inl ⟨hw, ?_⟩
        cases hz : s.z with
        | true => exact ⟨_, .jzTaken a s hz, by simp [exec, execJz, withOperand_of_inRange _ h, hz, retired,
            Instr.opcode, Instr.operand]⟩
        | false => exact ⟨_, .jzNot a s hz, by simp [exec, execJz, withOperand_of_inRange _ h, hz, retired,
            Instr.opcode, Instr.operand]⟩
      | add b =>
        cases ho
        have e : exec (.add a) s = _ := withOperand_of_inRange _ h
        rw [e, addWord]
        cases hn : narrow s.config (s.acc + readCell s a.toNat) with
        | some v => exact .inl ⟨hw, _, .add a s v hn, rfl⟩
        | none => exact .inr ⟨rfl, fault_of_narrow_eq_none hn, .inl rfl⟩
      | sub b =>
        cases ho
        have e : exec (.sub a) s = _ := withOperand_of_inRange _ h
        rw [e, subWord]
        cases hn : narrow s.config (s.acc - readCell s a.toNat) with
        | some v => exact .inl ⟨hw, _, .sub a s v hn, rfl⟩
        | none => exact .inr ⟨rfl, fault_of_narrow_eq_none hn, .inr rfl⟩
    · exact .inl ⟨a, rfl, h, exec_of_not_inRange ho h⟩

/-- If an instruction answers a next state, it aborted on its operand or had its effect. -/
theorem exec_cases {i : Instr} {s t : State} (h : exec i s = .next t) :
    (∃ a, i.operand = some a ∧ ¬ InRange s a ∧ t = abort .operandAddress a s) ∨
    (i.WellFormed s.config.memSize ∧ ∃ u, Effect i s u ∧ t = retired i s u) := by
  rcases exec_result i s with ⟨a, ho, hr, e⟩ | ⟨hw, u, hu, e⟩ | ⟨e, _⟩
  · exact .inl ⟨a, ho, hr, Host.Outcome.next.inj (h.symm.trans e)⟩
  · exact .inr ⟨hw, u, hu, Host.Outcome.next.inj (h.symm.trans e)⟩
  · exact absurd (h.symm.trans e) (by simp)

/-- A well-formed instruction that answers a next state had its effect. -/
theorem exec_effect {i : Instr} {s t : State} (hw : i.WellFormed s.config.memSize) (h : exec i s = .next t) :
    ∃ u, Effect i s u ∧ t = retired i s u := by
  rcases exec_cases h with ⟨a, ho, hr, _⟩ | ⟨_, u, hu, e⟩
  · exact absurd (inRange_of_wellFormed hw ho) hr
  · exact ⟨u, hu, e⟩

end Sys2Proof.Machine
end

