-- ==== Sys2Proof/Laws/Loader.lean ====
section
/-! SUPPORT. What the parts of the load surface answer. -/

namespace Sys2Proof.Machine

theorem loadWord_of_isWord {w : Nat} {v : Int} (h : IsWord w v) : loadWord w v = .ok v := if_pos h

theorem loadWord_of_not_isWord {w : Nat} {v : Int} (h : ¬ IsWord w v) : loadWord w v = .error .unrecognizedCommand :=
  if_neg h

/-- An accepted operand is present exactly when the arity is 1, and it is a Word. -/
theorem appendOperand_ok {w : Nat} {op : Opcode} {o a : Option Int} (h : appendOperand w op o = .ok a) :
    a = o ∧ a.toList.length = op.arity ∧ ∀ v ∈ a, IsWord w v := by
  unfold appendOperand at h
  split at h
  · cases h
    exact ⟨rfl, Eq.symm ‹_›, fun _ h => nomatch h⟩
  · cases h
  · cases h
  · rename_i v e
    by_cases hv : IsWord w v
    · rw [loadWord_of_isWord hv] at h
      cases h
      have ha : op.arity = 1 := by cases op <;> simp [Opcode.arity] at e ⊢
      exact ⟨rfl, ha.symm, fun _ h => Option.some.inj h ▸ hv⟩
    · rw [loadWord_of_not_isWord hv] at h
      cases h

/-- Attaching labels changes the labels only. -/
theorem placeLabels_eq (ls : List (Nat × String)) (s : State) :
    placeLabels ls s = { s with labels := (placeLabels ls s).labels } := by
  induction ls generalizing s with
  | nil => rfl
  | cons l ls ih => rw [placeLabels, ih]

/-- After attaching labels an address has one if it had one or is among them. -/
theorem find_placeLabels (ls : List (Nat × String)) (s : State) (a : Nat) :
    Labels.find (placeLabels ls s).labels a ≠ none ↔ Labels.find s.labels a ≠ none ∨ ∃ l ∈ ls, l.1 = a := by
  induction ls generalizing s with
  | nil => simp [placeLabels]
  | cons l ls ih =>
    rw [placeLabels, ih]
    simp only [Labels.find_set, List.mem_cons, exists_eq_or_imp]
    by_cases h : a = l.1 <;> simp [h, eq_comm]

theorem loadExample_of_find {name : String} {s : State} {e : ExampleProgram}
    (hf : ExampleCatalog.find s.config.examples name = some e) (hl : e.cells.length ≤ s.config.memSize) :
    loadExample name s = .ok (placeLabels e.labels (placeCells 0 e.cells (clearStore s))) := by
  simp only [loadExample, hf, if_pos hl]

end Sys2Proof.Machine
end

