-- ==== Sys2Proof/Laws/PerInstr.lean ====
section
/-! SUPPORT. Statements made of every instruction as syntax, one lemma per constructor. -/

/-- The cells of an instruction are as many as its opcode's length (R40, R43). -/
def Sys2Proof.Laws.EncodedLength.Statement (i : Sys2Proof.Instr) : Prop :=
  ∀ codes : Sys2Proof.OpcodeCodes, (Sys2Proof.encode codes i).length = i.opcode.length

namespace Sys2Proof.Laws.EncodedLength

theorem halt : Statement .halt := fun _ => rfl
theorem load (a : Int) : Statement (.load a) := fun _ => rfl
theorem add (a : Int) : Statement (.add a) := fun _ => rfl
theorem store (a : Int) : Statement (.store a) := fun _ => rfl
theorem print : Statement .print := fun _ => rfl
theorem sub (a : Int) : Statement (.sub a) := fun _ => rfl
theorem jmp (a : Int) : Statement (.jmp a) := fun _ => rfl
theorem jz (a : Int) : Statement (.jz a) := fun _ => rfl
theorem nop : Statement .nop := fun _ => rfl

end Sys2Proof.Laws.EncodedLength
end

