-- ==== Sys2Proof/Laws/Step.lean ====
section
/-! SUPPORT. What one step can do, said once; proofs cite `step_cases`. -/

namespace Sys2Proof.Machine

theorem fetchWindow_out {s : State} (h : ¬ InRange s s.pc) : fetchWindow s = [] := by
  simp only [fetchWindow, memRead_of_not_inRange h]

theorem fetchWindow_last {s : State} (h : InRange s s.pc) (h' : ¬ InRange s (s.pc + 1)) :
    fetchWindow s = [readCell s s.pc] := by
  simp only [fetchWindow, memRead_of_inRange h, memRead_of_not_inRange h', Int.toNat_natCast]

theorem fetchWindow_both {s : State} (h : InRange s s.pc) (h' : InRange s (s.pc + 1)) :
    fetchWindow s = [readCell s s.pc, readCell s (s.pc + 1)] := by
  simp only [fetchWindow, memRead_of_inRange h, memRead_of_inRange h', Int.toNat_natCast]
  rfl

/-- The opcode cell leads the window, and the operand cell follows it if there is one. -/
theorem fetchWindow_in {s : State} (h : InRange s s.pc) :
    ∃ rest, fetchWindow s = readCell s s.pc :: rest ∧
      (rest = [] ∧ ¬ InRange s (s.pc + 1) ∨ rest = [readCell s (s.pc + 1)] ∧ InRange s (s.pc + 1)) := by
  by_cases h' : InRange s (s.pc + 1)
  · exact ⟨_, fetchWindow_both h h', .inr ⟨rfl, h'⟩⟩
  · exact ⟨_, fetchWindow_last h h', .inl ⟨rfl, h'⟩⟩

/-- A turn of a ready state is the engine's step (R60). -/
theorem step_of_ready {s : State} (h : s.Ready) : step s = engineStep s := by
  simp only [step, loopTurn, h.1, if_neg h.2]

theorem step_of_guard {s : State} (hr : s.runState = .running) (hc : s.stepCount = s.config.maxSteps) :
    step s = .next (expireGuard s) := by
  simp only [step, loopTurn, hr, if_pos hc]

theorem step_of_not_running {s : State} (h : s.runState ≠ .running) : step s = .fault (.notRunning s.runState) := by
  unfold step loopTurn
  split <;> rename_i hr <;> first | exact absurd hr h | rw [hr]

theorem engineStep_of_decode {s : State} {i : Instr} {rest : List Int}
    (h : decode s.config.codes (fetchWindow s) = .ok (i, rest)) : engineStep s = exec i s := by
  simp only [engineStep, h]

/-- What the engine's step does, by the first of its checks that fails (R80). -/
theorem engineStep_result (s : State) :
    (¬ InRange s s.pc ∧ engineStep s = .next (abort .fetch s.pc s)) ∨
    (InRange s s.pc ∧ (∀ op, s.config.codes.code op ≠ readCell s s.pc) ∧
      engineStep s = .next (stopUnknown (readCell s s.pc) s)) ∨
    (∃ op, InRange s s.pc ∧ ¬ InRange s (s.pc + 1) ∧ s.config.codes.code op = readCell s s.pc ∧ op.arity = 1 ∧
      engineStep s = .next (abort .operandCell (s.pc + 1) s)) ∨
    (∃ i : Instr, InRange s s.pc ∧ s.config.codes.code i.opcode = readCell s s.pc ∧
      (∀ a, i.operand = some a → InRange s (s.pc + 1) ∧ readCell s (s.pc + 1) = a) ∧ engineStep s = exec i s) := by
  by_cases h : InRange s s.pc
  · obtain ⟨rest, hw, hrest⟩ := fetchWindow_in h
    cases hd : decodeOpcode s.config.codes (readCell s s.pc) with
    | none =>
      exact .inr (.inl ⟨h, decodeOpcode_eq_none.1 hd, by simp only [engineStep, hw, decode_cons_of_none rest hd]⟩)
    | some op =>
      have hc := code_of_decodeOpcode hd
      cases ha : assemble op rest with
      | error e =>
        obtain ⟨h1, h2, rfl⟩ := assemble_error.1 ha
        refine .inr (.inr (.inl ⟨op, h, ?_, hc, h1, by simp only [engineStep, hw, decode_cons_of_some rest hd, ha]⟩))
        rcases hrest with ⟨_, h'⟩ | ⟨h', _⟩
        · exact h'
        · exact absurd (h'.symm.trans h2) (by simp)
      | ok p =>
        obtain ⟨i, tail⟩ := p
        obtain ⟨rfl, h2⟩ := assemble_ok.1 ha
        refine .inr (.inr (.inr ⟨i, h, hc, fun a hi => ?_, by
          simp only [engineStep, hw, decode_cons_of_some rest hd, ha]⟩))
        rw [hi] at h2
        rcases hrest with ⟨h3, _⟩ | ⟨h3, h'⟩
        · exact absurd (h3.symm.trans h2) (by simp)
        · exact ⟨h', (List.cons.inj (h3.symm.trans h2)).1⟩
  · exact .inl ⟨h, by simp only [engineStep, fetchWindow_out h, decode]⟩

/-- If a step answers a next state, the run was going on, and the step was one of these. -/
theorem step_cases {s t : State} (h : step s = .next t) :
    s.runState = .running ∧
    ((s.stepCount = s.config.maxSteps ∧ t = expireGuard s) ∨
     (s.Ready ∧
       ((¬ InRange s s.pc ∧ t = abort .fetch s.pc s) ∨
        (InRange s s.pc ∧ (∀ op, s.config.codes.code op ≠ readCell s s.pc) ∧ t = stopUnknown (readCell s s.pc) s) ∨
        (InRange s s.pc ∧ ¬ InRange s (s.pc + 1) ∧ t = abort .operandCell (s.pc + 1) s) ∨
        (∃ i : Instr, InRange s s.pc ∧ s.config.codes.code i.opcode = readCell s s.pc ∧
          (∀ a, i.operand = some a → InRange s (s.pc + 1) ∧ readCell s (s.pc + 1) = a) ∧ exec i s = .next t)))) := by
  by_cases hr : s.runState = .running
  · refine ⟨hr, ?_⟩
    by_cases hc : s.stepCount = s.config.maxSteps
    · exact .inl ⟨hc, Host.Outcome.next.inj (h.symm.trans (step_of_guard hr hc))⟩
    · refine .inr ⟨⟨hr, hc⟩, ?_⟩
      rw [step_of_ready ⟨hr, hc⟩] at h
      rcases engineStep_result s with ⟨h1, e⟩ | ⟨h1, h2, e⟩ | ⟨op, h1, h2, _, _, e⟩ | ⟨i, h1, h2, h3, e⟩
      · exact .inl ⟨h1, Host.Outcome.next.inj (h.symm.trans e)⟩
      · exact .inr (.inl ⟨h1, h2, Host.Outcome.next.inj (h.symm.trans e)⟩)
      · exact .inr (.inr (.inl ⟨h1, h2, Host.Outcome.next.inj (h.symm.trans e)⟩))
      · exact .inr (.inr (.inr ⟨i, h1, h2, h3, e ▸ h⟩))
  · exact absurd (h.symm.trans (step_of_not_running hr)) (by simp)

end Sys2Proof.Machine
end

