-- ==== Sys2Proof/Laws/Run.lean ====
section
/-! SUPPORT. What the run loop answers, and how the result grows with the trace. -/

namespace Sys2Proof.Machine

/-- A run that has ended stays as it is. -/
theorem runLoop_of_ended {s : State} (h : s.runState ≠ .running) (k : Nat) : runLoop k s = .next s := by
  cases k with
  | zero => rfl
  | succ k =>
    unfold runLoop
    split <;> first | rfl | exact absurd ‹_› h

theorem runLoop_succ_of_next {s t : State} (hr : s.runState = .running) (h : step s = .next t) (k : Nat) :
    runLoop (k + 1) s = runLoop k t := by simp only [runLoop, hr, h]

theorem runLoop_succ_of_refused {s : State} {r : Refusal} (hr : s.runState = .running) (h : step s = .refused r)
    (k : Nat) : runLoop (k + 1) s = .refused r := by simp only [runLoop, hr, h]

/-- A turn of a running state answers a next state, or refuses an overflow under policy fault. -/
theorem step_of_running {s : State} (hr : s.runState = .running) :
    (∃ t, step s = .next t) ∨ s.config.overflowPolicy = .fault ∧ step s = .refused .arithmeticOverflow := by
  by_cases hc : s.stepCount = s.config.maxSteps
  · exact .inl ⟨_, step_of_guard hr hc⟩
  · rw [step_of_ready ⟨hr, hc⟩]
    rcases engineStep_result s with ⟨_, e⟩ | ⟨_, _, e⟩ | ⟨_, _, _, _, _, e⟩ | ⟨i, _, _, _, e⟩
    · exact .inl ⟨_, e⟩
    · exact .inl ⟨_, e⟩
    · exact .inl ⟨_, e⟩
    · rcases exec_result i s with ⟨_, _, _, e'⟩ | ⟨_, _, _, e'⟩ | ⟨e', hf, _⟩
      · exact .inl ⟨_, e.trans e'⟩
      · exact .inl ⟨_, e.trans e'⟩
      · exact .inr ⟨hf, e.trans e'⟩

/-- What every step keeps, the loop keeps: the induction over a run, packaged once. -/
theorem runLoop_keeps {P : State → Prop} (hP : ∀ s t, P s → step s = .next t → P t) (k : Nat) {s t : State} (hs : P s)
    (h : runLoop k s = .next t) : P t := by
  induction k generalizing s with
  | zero => exact Host.Outcome.next.inj h ▸ hs
  | succ k ih =>
    by_cases hr : s.runState = .running
    · rcases step_of_running hr with ⟨u, hu⟩ | ⟨_, hu⟩
      · exact ih (hP s u hs hu) (runLoop_succ_of_next hr hu k ▸ h)
      · exact absurd (h.symm.trans (runLoop_succ_of_refused hr hu k)) (by simp)
    · exact Host.Outcome.next.inj ((runLoop_of_ended hr _).symm.trans h) ▸ hs

theorem finalRegisters_append (tr : List StepRecord) (r : StepRecord) : finalRegisters (tr ++ [r]) = (r.acc, r.z) := by
  simp [finalRegisters]

theorem printedWords_append (tr : List StepRecord) (r : StepRecord) :
    printedWords (tr ++ [r]) = printedWords tr ++ if r.opcode = .known .print then [r.acc] else [] := by
  simp only [printedWords, List.filter_append, List.map_append, List.append_cancel_left_eq]
  by_cases h : r.opcode = .known .print <;> simp [h]

end Sys2Proof.Machine
end

