-- ==== Sys2Proof/Tests/Slice0.lean ====
section
/-! SUPPORT. The model's own tests: the spec's vectors (spec/95_test_vectors.md, named by their ids), the smoke tests of
WellFormed, and one witness for every statement that has hypotheses. Expected results are the spec's. -/

namespace Sys2Proof.Tests

open Sys2Proof Sys2Proof.Machine

/-! ### Builders -/

/-- The reference machine ready to step, with cells from address 0. -/
def machine (cells : List Int) (acc : Int := 0) (z : Bool := false) (pc : Nat := 0) : State :=
  placeCells 0 cells { State.reset with acc := acc, z := z, pc := pc }

/-- One more cell. -/
def withCell (a : Nat) (v : Int) (s : State) : State := writeCell a v s

/-- The reference machine under OVERFLOW_POLICY = fault. -/
def faultMachine (cells : List Int) (acc : Int) : State :=
  { machine cells acc with config := { Config.reference with overflowPolicy := .fault } }

/-- The reference machine with another MAX_STEPS. -/
def guardMachine (maxSteps : Nat) (cells : List Int) : State :=
  { machine cells with config := { Config.reference with maxSteps := maxSteps } }

/-- An example whose one label lies past its one cell. -/
def strayLabel : ExampleProgram := ⟨[0], [(1, "x")]⟩

/-- The reference configuration with another catalog. -/
def withExamples (c : ExampleCatalog) : Config := { Config.reference with examples := c }

/-- The next state, if the answer is one. -/
def after (r : Result) : Option State :=
  match r with
  | .next t => some t
  | .fault _ => none
  | .refused _ => none

/-- PC, ACC, Z and the run state after an answer. -/
def core (r : Result) : Option (Nat × Int × Bool × RunState) := (after r).map fun t => (t.pc, t.acc, t.z, t.runState)

/-- The records after an answer, without their descriptions. -/
def records (r : Result) : Option (List StepRecord) :=
  (after r).map fun t => t.trace.map fun r => { r with description := "" }

/-- What a load command leaves at an address, and the cursor. -/
def loaded (r : LoadResult) (a : Nat) : Except LoadError (Int × Nat) := r.map fun t => (readCell t a, t.cursor)

/-- The run state a run of the loop stops in, its output and its record count. -/
def ended (r : Result) : Option (RunState × List Int × Nat) :=
  (after r).map fun t => (t.runState, t.output, t.stepCount)

/-! ### WellFormed: an ill-formed term for each check -/

theorem test_wellformed_reference : Config.reference.WellFormed := by decide
theorem test_wellformed_refuses_no_memory : ¬ { Config.reference with memSize := 0 }.WellFormed := by decide
theorem test_wellformed_refuses_no_steps : ¬ { Config.reference with maxSteps := 0 }.WellFormed := by decide
theorem test_wellformed_refuses_shared_code :
    ¬ { Config.reference with codes := { OpcodeCodes.listed with nop := 0 } }.WellFormed := by decide
theorem test_wellformed_refuses_no_bits : ¬ { Config.reference with wordWidth := 0 }.WellFormed := by decide
/-- Code 8 of NOP needs five bits. -/
theorem test_wellformed_refuses_code_that_is_no_word : ¬ { Config.reference with wordWidth := 4 }.WellFormed := by decide
theorem test_wellformed_accepts_narrow_word : OpcodeCodes.listed.AreWords 5 := by decide
theorem test_wellformed_refuses_stray_suma_label :
    ¬ (withExamples { ExampleCatalog.reconstructed with suma := strayLabel }).WellFormed := by decide
theorem test_wellformed_refuses_stray_resta_label :
    ¬ (withExamples { ExampleCatalog.reconstructed with resta := strayLabel }).WellFormed := by decide
theorem test_wellformed_refuses_stray_bucle_label :
    ¬ (withExamples { ExampleCatalog.reconstructed with bucle := strayLabel }).WellFormed := by decide
theorem test_wellformed_refuses_wide_example_cell : ¬ ExampleProgram.WellFormed 32 ⟨[2147483648], []⟩ := by decide
theorem test_encodable_least_word : Instr.Encodable 32 (.load (-2147483648)) := by decide
theorem test_encodable_refuses_wide_operand : ¬ Instr.Encodable 32 (.load 2147483648) := by decide
theorem test_wellformed_operand_last_cell : Instr.WellFormed 32 (.load 31) := by decide
theorem test_wellformed_refuses_operand_above : ¬ Instr.WellFormed 32 (.jmp 32) := by decide
theorem test_wellformed_refuses_operand_negative : ¬ Instr.WellFormed 32 (.store (-1)) := by decide
theorem test_memory_form_refuses_zero_cell : ¬ Memory.Wf [(3, 0)] := by decide
theorem test_memory_form_refuses_disorder : ¬ Memory.Wf [(3, 1), (3, 2)] := by decide

/-! ### Decoding: words of the table (R41), and section 2.1 -/

theorem test_decode_halt : decodeTableWord 32 0b00000000000000000000000000000000 = some .halt := by decide
theorem test_decode_load : decodeTableWord 64 0x00000008_00000001 = some (.load 8) := by decide
theorem test_decode_add : decodeTableWord 64 0x00000009_00000002 = some (.add 9) := by decide
theorem test_decode_store : decodeTableWord 64 0x0000000A_00000003 = some (.store 10) := by decide
theorem test_decode_print : decodeTableWord 32 0b00000000000000000000000000000100 = some .print := by decide
theorem test_decode_sub : decodeTableWord 64 0x80000000_00000005 = some (.sub (-2147483648)) := by decide
theorem test_decode_jmp : decodeTableWord 64 0xFFFFFFFF_00000006 = some (.jmp (-1)) := by decide
theorem test_decode_jz : decodeTableWord 64 0x0000000B_00000007 = some (.jz 11) := by decide
theorem test_decode_nop : decodeTableWord 32 0b00000000000000000000000000001000 = some .nop := by decide
theorem test_decode_short_row_has_zero_operand : decodeTableWord 32 0x00000001 = some (.load 0) := by decide
theorem test_decode_unknown : [9, 100, 0xFFFFFFFF, 0x7FFFFFFF, 0x80000000].map (decodeTableWord 32) = List.replicate 5 none := by
  decide
theorem test_decode_names_the_unknown : decode .listed [9, 0] = .error (.unknownOpcode 9) := by rfl
theorem test_decode_names_the_missing_operand : decode .listed [1] = .error (.noOperandCell .load) := by rfl

/-! ### Data transfer -/

/-- DT1. -/
theorem test_load : core (step (withCell 8 2 (machine [1, 8]))) = some (2, 2, false, .running) := by decide
/-- DT4: the operand cell itself, and the record. -/
theorem test_load_own_operand : records (step (machine [1, 1])) = some [⟨0, .known .load, some 1, 1, false, ""⟩] := by decide
/-- DT8: ACC and Z stay. -/
theorem test_store : core (step (machine [3, 10] 4 true)) = some (2, 4, true, .running) := by decide
/-- DT10: over the own operand cell, the record keeps the address read before the write. -/
theorem test_store_own_operand :
    (after (step (machine [3, 1] 5))).map (fun t => (readCell t 1, t.trace.map (·.operand))) = some (5, [some 1]) := by decide

/-! ### Arithmetic -/

/-- AR2. -/
theorem test_add_wraps :
    core (step (withCell 9 1 (machine [2, 9] 2147483647))) = some (2, -2147483648, false, .running) := by decide
/-- AR5. -/
theorem test_add_wraps_to_zero :
    core (step (withCell 9 (-2147483648) (machine [2, 9] (-2147483648)))) = some (2, 0, true, .running) := by decide
/-- AR9: ACC minus the cell. -/
theorem test_sub_order : core (step (withCell 9 5 (machine [5, 9] 3 true))) = some (2, -2, false, .running) := by decide
/-- AR10. -/
theorem test_sub_wraps :
    core (step (withCell 9 1 (machine [5, 9] (-2147483648)))) = some (2, 2147483647, false, .running) := by decide
/-- AR14. -/
theorem test_overflow_refused :
    step (withCell 9 1 (faultMachine [2, 9] 2147483647)) = .refused .arithmeticOverflow := rfl

/-! ### Control transfer -/

/-- CT1. -/
theorem test_jmp : core (step (machine [6, 5] 3 true)) = some (5, 3, true, .running) := by decide
/-- CT4. -/
theorem test_jmp_negative :
    core (step (machine [6, -1])) = some (0, 0, false, .abortedFatal (.outOfRangeAddress .operandAddress (-1))) := by decide
/-- CT6. -/
theorem test_jz_taken : core (step (machine [7, 11] 0 true)) = some (11, 0, true, .running) := by decide
/-- CT9: not taken at run start although ACC is 0. -/
theorem test_jz_not_taken : core (step (machine [7, 6])) = some (2, 0, false, .running) := by decide

/-! ### System -/

/-- SY1. -/
theorem test_halt : core (step (machine [8, 8, 8, 8, 8, 8, 8, 0] 4 false 7)) = some (7, 4, false, .halted) := by decide
/-- CY5. -/
theorem test_halt_records : records (step State.reset) = some [⟨0, .known .halt, none, 0, false, ""⟩] := by decide
/-- SY3. -/
theorem test_print : (after (step (machine [4] (-2)))).map (fun t => (t.pc, t.output)) = some (1, [-2]) := by decide
/-- SY6, first step. -/
theorem test_nop_in_last_cell : core (step (withCell 31 8 (machine [] 0 false 31))) = some (32, 0, false, .running) := by decide

/-! ### Cycle, priority, guard -/

/-- CY4. -/
theorem test_fetch_abort :
    core (step (machine [] 0 false 32)) = some (32, 0, false, .abortedFatal (.outOfRangeAddress .fetch 32)) := by decide
/-- DT6. -/
theorem test_operand_cell_abort :
    core (step (withCell 31 1 (machine [] 0 false 31))) =
      some (31, 0, false, .abortedFatal (.outOfRangeAddress .operandCell 32)) := by decide
/-- CT8: an untaken JZ aborts too, and records nothing. -/
theorem test_operand_address_abort : records (step (machine [7, 32])) = some [] := by decide
/-- CY3: an unknown code in the last cell stops gracefully. -/
theorem test_unknown_in_last_cell :
    (after (step (withCell 31 9 (machine [] 0 false 31)))).map (fun t => (t.runState, t.trace)) =
      some (.stoppedUnknownOpcode, [⟨31, .unknown 9, none, 0, false, "unknown instruction"⟩]) := by decide
/-- R12: no step after HALT. -/
theorem test_no_step_when_halted :
    step { State.reset with runState := .halted } = .fault (.notRunning .halted) := rfl
/-- CY6 and CY7. -/
theorem test_guard : ended (runToEnd (guardMachine 1 [8, 0])) = some (.guardExpired, [], 1) ∧
    ended (runToEnd (guardMachine 2 [8, 0])) = some (.halted, [], 2) := by decide

/-! ### The load surface -/

/-- HL1. -/
theorem test_append : loaded (appendInstruction "LOAD" (some 8) State.reset) 1 = .ok (8, 2) := by rfl
/-- HL2, HL3, HL4. -/
theorem test_append_rejections : loaded (appendInstruction "load" (some 8) State.reset) 0 = .error .unrecognizedMnemonic ∧
    loaded (appendInstruction "LOAD" none State.reset) 0 = .error .missingOperand ∧
    loaded (appendInstruction "PRINT" (some 5) State.reset) 0 = .error .unrecognizedCommand := ⟨rfl, rfl, rfl⟩
/-- HL5, HL6. -/
theorem test_append_at_the_end :
    loaded (appendInstruction "LOAD" (some 5) { State.reset with cursor := 31 }) 0 = .error .memoryFull ∧
    loaded (appendInstruction "NOP" none { State.reset with cursor := 31 }) 31 = .ok (8, 32) := ⟨rfl, rfl⟩
/-- HL7, HL8. -/
theorem test_write_raw : loaded (writeRaw 5 9 State.reset) 5 = .ok (9, 0) ∧
    loaded (writeRaw 32 7 State.reset) 5 = .error .outOfRangeAddress := ⟨rfl, rfl⟩
/-- HL9. -/
theorem test_label : Labels.set (Labels.set [] 10 "result") 10 "sum" = [(10, "sum")] := by decide
/-- HL11, HL12. -/
theorem test_load_example : loaded (loadExample "foo" State.reset) 0 = .error .unknownExample ∧
    loaded (loadExample "suma" State.reset) 5 = .ok (10, 0) := ⟨rfl, rfl⟩

/-! ### The interface: a placed word runs next -/

theorem test_placed_word :
    core (step (State.reset.withFetchWord 64 0x00000005_00000006)) = some (5, 0, false, .running) ∧
    core (step (State.reset.withFetchWord 32 8)) = some (1, 0, false, .running) ∧
    core (step ({ State.reset with runState := .halted, pc := 9 }.withFetchWord 32 8)) = some (1, 0, false, .running) := by
  decide

/-! ### Witnesses: a state and operands that meet a statement's hypotheses, each clause at a boundary -/

theorem witness_EveryAddressIsRangeChecked :
    ((machine [] 0 false 32).Ready ∧ ¬ InRange (machine [] 0 false 32) (machine [] 0 false 32).pc) ∧
    ((withCell 31 1 (machine [] 0 false 31)).Ready ∧ (withCell 31 1 (machine [] 0 false 31)).config.codes.Injective ∧
      InRange (withCell 31 1 (machine [] 0 false 31)) 31 ∧ ¬ InRange (withCell 31 1 (machine [] 0 false 31)) (31 + 1) ∧
      readCell (withCell 31 1 (machine [] 0 false 31)) 31 = OpcodeCodes.listed.code .load ∧ Opcode.load.arity = 1) ∧
    (Instr.operand (.jmp 32) = some 32 ∧ ¬ InRange State.reset (32)) ∧
    ¬ InRange State.reset (-1) ∧ ¬ InRange State.reset 32 := by decide

theorem witness_MemWriteSetsOneCell :
    InRange State.reset 0 ∧ InRange State.reset 31 ∧ ¬ InRange State.reset 32 ∧ ¬ InRange State.reset (-1) := by decide

theorem witness_MemoryFormIsCanonical :
    Memory.Wf [(5, 9)] ∧ Memory.Wf (Memory.write (Memory.write [] 7 1) 5 9) ∧
    Memory.write (Memory.write (Memory.write [] 7 1) 5 9) 7 0 = [(5, 9)] := by decide

theorem witness_DecoderReadsTheWholeCell : OpcodeCodes.listed.Injective ∧
    decodeOpcode .listed 8 = some .nop ∧ decodeOpcode .listed 9 = none := by decide

theorem witness_DecodeInvertsEncode : OpcodeCodes.listed.Injective ∧
    ({ OpcodeCodes.listed with halt := 8, nop := 0 } : OpcodeCodes).Injective := by decide

theorem witness_PackedWordDecodes : 1 ≤ 5 ∧ OpcodeCodes.listed.Injective ∧ OpcodeCodes.listed.AreWords 5 ∧
    Instr.Encodable 5 (.load (-16)) ∧ tableCells 5 10 (1 + 16 * 2 ^ 5) = [1, -16] := by decide

theorem witness_DecoderRefusesByName : OpcodeCodes.listed.Injective ∧ (∀ op ∈ Opcode.all, OpcodeCodes.listed.code op ≠ 9) ∧
    Opcode.jz.arity = 1 := by decide

theorem witness_MnemonicsMatchExactly :
    "load" ∉ ["HALT", "LOAD", "ADD", "STORE", "PRINT", "SUB", "JMP", "JZ", "NOP"] := by decide

/-- The operand in range at both ends, out of range just past them, and the opcode `code` in the last cell. -/
abbrev OperandBoundaries (code : Int) : Prop :=
  InRange State.reset (0) ∧ InRange State.reset (31) ∧
  ¬ InRange State.reset (32) ∧ ¬ InRange State.reset ((-1)) ∧
  (withCell 31 code (machine [] 0 false 31)).Ready ∧
  (withCell 31 code (machine [] 0 false 31)).pc + 1 = (withCell 31 code (machine [] 0 false 31)).config.memSize ∧
  (withCell 31 code (machine [] 0 false 31)).config.codes.Injective ∧
  readCell (withCell 31 code (machine [] 0 false 31)) 31 = code

theorem witness_LoadEffect : OperandBoundaries OpcodeCodes.listed.load := by decide
theorem witness_StoreEffect : OperandBoundaries OpcodeCodes.listed.store := by decide

theorem witness_AddEffect : OperandBoundaries OpcodeCodes.listed.add ∧ State.reset.config.overflowPolicy = .wrap ∧
    1 ≤ State.reset.config.wordWidth ∧
    IsWord 32 ((machine [2, 0] 2147483645).acc + readCell (machine [2, 0] 2147483645) 0) ∧
    (faultMachine [2, 0] 2147483646).config.overflowPolicy = .fault ∧
    ¬ IsWord 32 ((faultMachine [2, 0] 2147483646).acc + readCell (faultMachine [2, 0] 2147483646) 0) := by decide
theorem witness_SubEffect : OperandBoundaries OpcodeCodes.listed.sub ∧ State.reset.config.overflowPolicy = .wrap ∧
    1 ≤ State.reset.config.wordWidth ∧
    IsWord 32 ((machine [5, 0] (-2147483643)).acc - readCell (machine [5, 0] (-2147483643)) 0) ∧
    (faultMachine [5, 0] (-2147483644)).config.overflowPolicy = .fault ∧
    ¬ IsWord 32 ((faultMachine [5, 0] (-2147483644)).acc - readCell (faultMachine [5, 0] (-2147483644)) 0) := by decide

/-- At 8 bits too: 127 + 1 wraps to -128, the one Word that differs from 128 by a multiple of 256. -/
theorem witness_AluWrapsIntoTheSignedRange : 1 ≤ Config.reference.wordWidth ∧ Config.reference.overflowPolicy = .wrap ∧
    addWord { Config.reference with wordWidth := 8 } 127 1 = some (-128) ∧ IsWord 8 (-128) ∧ (256 : Int) ∣ 128 - -128 := by
  decide

theorem witness_JmpEffect : OperandBoundaries OpcodeCodes.listed.jmp := by decide
theorem witness_JzEffect : OperandBoundaries OpcodeCodes.listed.jz ∧ (machine [7, 11] 0 true).z = true ∧
    (machine [7, 11]).z = false := by decide

theorem witness_NopEffect : ∃ t, exec .nop (withCell 31 8 (machine [] 0 false 31)) = .next t ∧
    (withCell 31 8 (machine [] 0 false 31)).pc + 1 = (withCell 31 8 (machine [] 0 false 31)).config.memSize ∧ t.Ready :=
  ⟨_, rfl, by decide, by decide⟩

theorem witness_ZeroFlagRule : Instr.WellFormed 32 (.load 31) ∧ (Instr.load 31).opcode ≠ .jz ∧
    core (exec (.load 31) (machine [1, 31] 7)) = some (2, 0, true, .running) := by decide

theorem witness_ProgramCounterRule :
    Instr.WellFormed 32 (.jz 31) ∧ (machine [7, 31] 0 true).z = true ∧ (machine [7, 31]).z = false ∧
    core (exec (.jz 31) (machine [7, 31] 0 true)) = some (31, 0, true, .running) ∧
    core (exec (.jz 31) (machine [7, 31])) = some (2, 0, false, .running) ∧
    core (exec .halt (machine [0])) = some (0, 0, false, .halted) := by decide

theorem witness_FrameOfLoadAddSub : Instr.WellFormed 32 (.sub 31) ∧
    core (exec (.sub 31) (machine [5, 31] 7)) = some (2, 7, false, .running) ∧
    core (exec (.add 32) (machine [2, 32] 7)) =
      some (0, 7, false, .abortedFatal (.outOfRangeAddress .operandAddress 32)) := by decide

theorem witness_FrameOfStore : operandAddress (machine [3, 31] 4) 31 = some 31 ∧ operandAddress (machine [3, 32]) 32 = none ∧
    core (exec (.store 31) (machine [3, 31] 4)) = some (2, 4, false, .running) ∧
    (after (exec (.store 32) (machine [3, 32]))).isSome = true := by decide

theorem witness_FrameOfControlAndSystem :
    Opcode.print ∈ [Opcode.print, .jmp, .jz, .nop, .halt] ∧ Instr.WellFormed 32 (.jmp 31) ∧
    core (exec .print (machine [4] 3)) = some (1, 3, false, .running) ∧
    core (exec (.jmp 31) (machine [6, 31] 3)) = some (31, 3, false, .running) := by decide

theorem witness_InstructionsAnswerANextState : State.reset.config.overflowPolicy = .wrap ∧
    Instr.WellFormed 32 (.load 31) ∧ Instr.operand (.load 32) = some 32 ∧ ¬ InRange State.reset 32 ∧
    exec (.add 9) (withCell 9 1 (faultMachine [2, 9] 2147483647)) = .refused .arithmeticOverflow :=
  ⟨rfl, by decide, rfl, by decide, rfl⟩

theorem witness_StepRunsTheDecodedInstruction :
    (machine [1, 31]).Ready ∧ (machine [1, 31]).config.codes.Injective ∧ InRange (machine [1, 31]) (machine [1, 31]).pc ∧
    OpcodeCodes.listed.code (Instr.load 31).opcode = readCell (machine [1, 31]) 0 ∧
    InRange (machine [1, 31]) ((machine [1, 31]).pc + 1) ∧ readCell (machine [1, 31]) 1 = 31 := by decide

theorem witness_StepChecksInOrder :
    State.reset.runState = .running ∧ State.reset.config.codes.Injective ∧
    { State.reset with stepCount := 100 }.stepCount = State.reset.config.maxSteps ∧
    ¬ InRange (machine [] 0 false 32) (machine [] 0 false 32).pc ∧
    (∀ op ∈ Opcode.all, OpcodeCodes.listed.code op ≠ readCell (machine [9]) 0) ∧
    (readCell (withCell 31 1 (machine [] 0 false 31)) 31 = OpcodeCodes.listed.code .load ∧ Opcode.load.arity = 1 ∧
      ¬ InRange (withCell 31 1 (machine [] 0 false 31)) (31 + 1)) ∧
    (InRange (machine [6, 32]) (0 + 1) ∧ ¬ InRange (machine [6, 32]) (readCell (machine [6, 32]) 1)) := by decide

theorem witness_UnknownOpcodeStopsGracefully : (withCell 31 9 (machine [] 0 false 31)).Ready ∧
    InRange (withCell 31 9 (machine [] 0 false 31)) 31 ∧
    ∀ op, OpcodeCodes.listed.code op ≠ readCell (withCell 31 9 (machine [] 0 false 31)) 31 :=
  ⟨by decide, by decide, fun op => by cases op <;> decide⟩

theorem witness_GuardExpiryIsTheLoopsOwn : State.reset.runState = .running ∧
    core (step { State.reset with stepCount := 100 }) = some (0, 0, false, .guardExpired) ∧
    core (exec .nop { State.reset with runState := .guardExpired }) = some (1, 0, false, .guardExpired) := by decide

theorem witness_HaltedOnlyByHalt : core (step State.reset) = some (0, 0, false, .halted) := by decide

theorem witness_AbortWritesNothing :
    core (step (machine [6, 32])) = some (0, 0, false, .abortedFatal (.outOfRangeAddress .operandAddress 32)) := by decide

theorem witness_OneRecordPerCompletedStep : (machine [8]).Ready ∧ core (step (machine [8])) = some (1, 0, false, .running) ∧
    core (step (machine [9])) = some (0, 0, false, .stoppedUnknownOpcode) := by decide

/-- STORE `a` goes on to a ready state. -/
abbrev StoresThenReady (a : Int) (s : State) : Prop :=
  ∃ t, exec (.store a) s = .next t ∧ InRange s a ∧ t.Ready ∧ t.config.codes.Injective

/-- Over the opcode cell: PRINT's code, LOAD's code before its operand. -/
theorem witness_StoreIsSeenByTheNextFetch_opcode :
    (StoresThenReady 2 (machine [3, 2, 8] 4) ∧ OpcodeCodes.listed.code Instr.print.opcode = 4 ∧
      Instr.print.operand = none) ∧
    StoresThenReady 2 (machine [3, 2, 8, 31] 1) ∧ OpcodeCodes.listed.code (Instr.load 31).opcode = 1 ∧
      InRange (machine [3, 2, 8, 31] 1) (0 + 3) ∧ readCell (machine [3, 2, 8, 31] 1) 3 = 31 :=
  ⟨⟨⟨_, rfl, by decide⟩, rfl, rfl⟩, ⟨_, rfl, by decide⟩, rfl, by decide, rfl⟩

/-- Over the opcode cell: LOAD's code in the last cell, and no opcode's code. -/
theorem witness_StoreIsSeenByTheNextFetch_stop :
    (StoresThenReady 31 (withCell 30 31 (withCell 29 3 (machine [] 1 false 29))) ∧ Opcode.load.arity = 1 ∧
      OpcodeCodes.listed.code .load = 1 ∧ ¬ InRange State.reset (29 + 3)) ∧
    StoresThenReady 2 (machine [3, 2, 8] 9) ∧ ∀ op, OpcodeCodes.listed.code op ≠ 9 :=
  ⟨⟨⟨_, rfl, by decide⟩, rfl, rfl, by decide⟩, ⟨_, rfl, by decide⟩, fun op => by cases op <;> decide⟩

/-- Over the operand cell: LOAD 0 becomes LOAD 31. -/
theorem witness_StoreIsSeenByTheNextFetch_operand :
    StoresThenReady 3 (machine [3, 3, 1] 31) ∧
    OpcodeCodes.listed.code (Instr.load 31).opcode = readCell (machine [3, 3, 1] 31) 2 ∧
    (Instr.load 31).operand = some 31 := ⟨⟨_, rfl, by decide⟩, rfl, rfl⟩

theorem witness_HostStateIsNeverRead : (after (step (machine [8]))).isSome = true ∧
    step { State.reset with runState := .halted } = .fault (.notRunning .halted) ∧
    step (withCell 9 1 (faultMachine [2, 9] 2147483647)) = .refused .arithmeticOverflow := ⟨by decide, rfl, rfl⟩

theorem witness_store_sound : StoreInv State.reset :=
  ⟨by decide, by decide, by decide, by decide, by decide, by decide, by decide⟩

theorem witness_InitialStateIsSound : Config.reference.WellFormed ∧ { Config.reference with memSize := 1, maxSteps := 1 }.WellFormed ∧
    { Config.reference with wordWidth := 64 }.WellFormed := by
  decide

theorem witness_StepKeepsTheStateSound : RunInv State.reset ∧ (after (step State.reset)).isSome = true :=
  ⟨⟨witness_store_sound, by decide, by decide, by decide, rfl, rfl,
    fun _ h => absurd h List.not_mem_nil, rfl, fun _ h => absurd h List.not_mem_nil,
    fun _ h => absurd h List.not_mem_nil⟩, by decide⟩

theorem witness_RunReturnsASoundResultAndClears : StoreInv State.reset ∧ ∃ res u, run State.reset = .next (res, u) ∧
    res.status = .halted := ⟨witness_store_sound, _, _, rfl, rfl⟩

theorem witness_GuardOnlyTruncatesTheRun : (guardMachine 1 [8, 0]).config.maxSteps ≤ 2 ∧
    ended (runToEnd (guardMachine 1 [8, 0])) = some (.guardExpired, [], 1) ∧
    ended (runToEnd { guardMachine 1 [8, 0] with config := { (guardMachine 1 [8, 0]).config with maxSteps := 2 } }) =
      some (.halted, [], 2) := by decide

theorem witness_PlacedWordRunsNext : State.reset.config.WellFormed ∧ 2 ≤ State.reset.config.memSize ∧
    decode State.reset.config.codes (tableCells 32 64 0x00000005_00000006) = .ok (.jmp 5, []) := ⟨by decide, by decide, rfl⟩

theorem witness_AppendLaysOutTheInstruction : ∃ t, appendInstruction "JMP" (some (-1)) State.reset = .ok t := ⟨_, rfl⟩

theorem witness_AppendRejections : Opcode.load.arity = 1 ∧ Opcode.nop.arity = 0 ∧ IsWord 32 2147483647 ∧ ¬ IsWord 32 2147483648 ∧
    IsWord 32 (-2147483648) ∧ ¬ IsWord 32 (-2147483649) ∧
    State.reset.config.memSize < { State.reset with cursor := 31 }.cursor + 2 ∧
    { State.reset with cursor := 30 }.cursor + 2 ≤ State.reset.config.memSize ∧
    State.reset.config.memSize < { State.reset with cursor := 32 }.cursor + 1 ∧
    { State.reset with cursor := 31 }.cursor + 1 ≤ State.reset.config.memSize := by decide

theorem witness_RawWriteAndLabel : InRange State.reset 31 ∧ InRange State.reset 0 ∧ ¬ InRange State.reset 32 ∧ IsWord 32 (-2147483648) ∧
    ¬ IsWord 32 2147483648 := by decide

theorem witness_LoadExampleBuildsTheProgram : "foo" ∉ ["suma", "resta", "bucle"] ∧
    State.reset.config.examples.bucle.cells.length ≤ State.reset.config.memSize := by decide

theorem witness_LoadingKeepsTheStoreSound : StoreInv State.reset ∧
    ∃ t, loadCommand (.writeRaw 31 (-1)) State.reset = .ok t := ⟨witness_store_sound, _, rfl⟩

end Sys2Proof.Tests
end

section
/-! SUPPORT. Proofs of the statements about the state: what session start, the post-run clear and run start set (R20,
R94, R96), and the Z rule (R11). -/

namespace Sys2Proof.Machine

/-! ### The empty store -/

@[simp] theorem initial_mem (c : Config) : (State.initial c).mem = [] := rfl
@[simp] theorem initial_labels (c : Config) : (State.initial c).labels = [] := rfl
@[simp] theorem initial_cursor (c : Config) : (State.initial c).cursor = 0 := rfl

theorem readCell_of_mem_nil {s : State} (h : s.mem = []) (a : Nat) : readCell s a = 0 := by
  rw [readCell, h, Memory.read_nil]

theorem find_of_labels_nil {s : State} (h : s.labels = []) (a : Nat) : Labels.find s.labels a = none := by
  rw [h, Labels.find_nil]

/-- Settles O1: session start and the post-run clear list no cell and no label, and an unlisted cell reads 0. -/
theorem sessionStartStoreIsEmpty : Obligations.SessionStartStoreIsEmpty := by
  unfold Obligations.SessionStartStoreIsEmpty
  refine ⟨fun c a => ⟨?_, ?_, initial_cursor c⟩, fun s a => ⟨?_, ?_⟩,
    fun s => ⟨startRun_pc s, startRun_acc s, startRun_z s⟩⟩
  · exact readCell_of_mem_nil (initial_mem c) a
  · exact find_of_labels_nil (initial_labels c) a
  · exact readCell_of_mem_nil (postRunClear_mem s) a
  · exact find_of_labels_nil (postRunClear_labels s) a

/-! ### The Z rule -/

/-- A well-formed instruction answers the effect it has: the converse of `exec_effect`. -/
theorem exec_of_effect {i : Instr} {s u : State} (hw : i.WellFormed s.config.memSize) (h : Effect i s u) :
    exec i s = .next (retired i s u) := by
  cases h with
  | halt | print | nop => rfl
  | load a | store a | jmp a => exact withOperand_of_inRange _ (inRange_of_wellFormed hw rfl)
  | add a _ v hv =>
    rw [exec, execAdd, withOperand_of_inRange _ (inRange_of_wellFormed hw rfl), addWord, hv, finishArithmetic_some]
    rfl
  | sub a _ v hv =>
    rw [exec, execSub, withOperand_of_inRange _ (inRange_of_wellFormed hw rfl), subWord, hv, finishArithmetic_some]
    rfl
  | jzTaken a _ hz | jzNot a _ hz =>
    rw [exec, execJz, withOperand_of_inRange _ (inRange_of_wellFormed hw rfl), hz]
    rfl

/-- Who writes Z (R11, R66). -/
theorem Effect.z_eq {i : Instr} {s u : State} (h : Effect i s u) :
    u.z = if i.opcode = .load ∨ i.opcode = .add ∨ i.opcode = .sub then zero u.acc else s.z := by
  cases h <;> rfl

/-- Who reads Z (R11): from a state that differs in Z alone, an effect other than JZ's leads to a state that differs
in Z alone. -/
theorem Effect.of_other_z {i : Instr} {s u : State} (hi : i.opcode ≠ .jz) (h : Effect i s u) (b : Bool) :
    ∃ c, Effect i { s with z := b } { u with z := c } := by
  cases h with
  | load a => exact ⟨zero (readCell s a.toNat), .load a _⟩
  | add a _ v hv => exact ⟨zero v, .add a _ v hv⟩
  | sub a _ v hv => exact ⟨zero v, .sub a _ v hv⟩
  | halt => exact ⟨b, .halt _⟩
  | store a => exact ⟨b, .store a _⟩
  | print => exact ⟨b, .print _⟩
  | jmp a => exact ⟨b, .jmp a _⟩
  | nop => exact ⟨b, .nop _⟩
  | jzTaken | jzNot => exact absurd rfl hi

/-- Settles O22: `Effect.z_eq` says who writes Z, `Effect.of_other_z` who reads it; an abort does neither. -/
theorem zeroFlagRule : Obligations.ZeroFlagRule := by
  unfold Obligations.ZeroFlagRule
  refine ⟨fun i s t hw h => ?_, fun i s t b hi h => ?_, fun s => ⟨startRun_z s, startRun_acc s⟩⟩
  · obtain ⟨u, hu, rfl⟩ := exec_effect hw h
    exact hu.z_eq
  · rcases exec_cases h with ⟨a, ho, hr, rfl⟩ | ⟨hw, u, hu, rfl⟩
    · exact ⟨_, exec_of_not_inRange ho hr, rfl, rfl, rfl, rfl, rfl, rfl⟩
    · obtain ⟨c, hc⟩ := hu.of_other_z hi b
      exact ⟨_, exec_of_effect hw hc, rfl, rfl, rfl, rfl, rfl, rfl⟩

end Sys2Proof.Machine
end

section
/-! SUPPORT. Proof of the statement about MemWrite: the cell it sets and what it leaves unchanged (R27). -/

namespace Sys2Proof.Machine

theorem readCell_writeCell_same (a : Nat) (v : Int) (s : State) : readCell (writeCell a v s) a = v := by
  rw [readCell_writeCell, if_pos rfl]

theorem readCell_writeCell_of_ne {a b : Nat} (h : b ≠ a) (v : Int) (s : State) :
    readCell (writeCell a v s) b = readCell s b := by
  rw [readCell_writeCell, if_neg h]

/-- The frame of a cell write: it differs from the old state in memory only. -/
theorem writeCell_eq_with_mem (a : Nat) (v : Int) (s : State) :
    writeCell a v s = { s with mem := (writeCell a v s).mem } := rfl

/-- Settles O4: in range MemWrite is `writeCell` at the address, whose read rules and frame stand above. -/
theorem memWriteSetsOneCell : Obligations.MemWriteSetsOneCell := by
  unfold Obligations.MemWriteSetsOneCell
  refine fun s a v => ⟨fun h => ⟨writeCell a.toNat v s, memWrite_of_inRange h, ?_, fun b hb => ?_, ?_⟩,
    memWrite_of_not_inRange⟩
  · exact readCell_writeCell_same a.toNat v s
  · exact readCell_writeCell_of_ne hb v s
  · exact writeCell_eq_with_mem a.toNat v s

end Sys2Proof.Machine
end

section
/-! SUPPORT. Proofs of the statements about the instruction table: arity and length (R43), and the mnemonic spellings
(R47). -/

namespace Sys2Proof.Machine

/-! ### Arity and length -/

/-- Which opcodes take no operand (R43). -/
theorem arity_eq_ite (op : Opcode) : op.arity = if op = .halt ∨ op = .print ∨ op = .nop then 0 else 1 := by
  cases op <;> rfl

/-- An encoded instruction is its opcode cell and the operand cells its arity asks for, under any code table. -/
theorem encode_length (codes : OpcodeCodes) (i : Instr) : (encode codes i).length = 1 + i.opcode.arity := by
  rw [encode, List.length_cons, i.operand_length, Nat.add_comm]

/-- Settles O6: `arity_eq_ite` for the opcodes, `encode_length` for the encoded instructions. -/
theorem arityAndLength : Obligations.ArityAndLength :=
  ⟨arity_eq_ite, fun _ => rfl, encode_length⟩

/-! ### The mnemonic spellings -/

theorem mnemonic_of_ofMnemonic {text : String} {op : Opcode} (h : Opcode.ofMnemonic text = some op) :
    op.mnemonic = text := by simpa using List.find?_some h

/-- No mnemonic is recognized exactly when the text is no entry of the spelling table (R47). -/
theorem ofMnemonic_eq_none {text : String} :
    Opcode.ofMnemonic text = none ↔ text ∉ Opcode.all.map Opcode.mnemonic := by
  simp only [Opcode.ofMnemonic, List.find?_eq_none, beq_iff_eq, List.mem_map, not_exists, not_and]

theorem ofMnemonic_mnemonic (op : Opcode) : Opcode.ofMnemonic op.mnemonic = some op := by
  cases e : Opcode.ofMnemonic op.mnemonic with
  | none => exact absurd (List.mem_map_of_mem op.mem_all) (ofMnemonic_eq_none.1 e)
  | some op' => rw [Opcode.mnemonic_inj (mnemonic_of_ofMnemonic e)]

theorem ofMnemonic_eq_some_iff {text : String} {op : Opcode} :
    Opcode.ofMnemonic text = some op ↔ text = op.mnemonic :=
  ⟨fun h => (mnemonic_of_ofMnemonic h).symm, fun h => h ▸ ofMnemonic_mnemonic op⟩

/-- The mnemonic is the first thing `append` checks (R35). -/
theorem appendInstruction_of_ofMnemonic_eq_none {text : String} (h : Opcode.ofMnemonic text = none)
    (operand : Option Int) (s : State) : appendInstruction text operand s = .error .unrecognizedMnemonic := by
  rw [appendInstruction, h]

/-- Settles O11: the lookup is exact (`ofMnemonic_eq_some_iff`), and a text off the spelling table fails it before
`append` looks at anything else. -/
theorem mnemonicsMatchExactly : Obligations.MnemonicsMatchExactly := by
  unfold Obligations.MnemonicsMatchExactly
  refine ⟨fun _ _ => ofMnemonic_eq_some_iff, rfl, fun text operand s h => ?_⟩
  have hnone : Opcode.ofMnemonic text = none := ofMnemonic_eq_none.2 h
  exact appendInstruction_of_ofMnemonic_eq_none hnone operand s

end Sys2Proof.Machine
end

section
/-! SUPPORT. Proofs of the statements about the decoder and the encoder (R40 to R46): which cells decode to an
instruction, when the decoder refuses, and how an instruction packed in one word decodes. -/

namespace Sys2Proof.Machine

/-! ### The opcode cell -/

/-- An injective code table decodes a Word to the one opcode whose code it is (R42). -/
theorem decodeOpcode_eq_some_iff {codes : OpcodeCodes} (h : codes.Injective) {code : Int} {op : Opcode} :
    decodeOpcode codes code = some op ↔ codes.code op = code :=
  ⟨code_of_decodeOpcode, fun e => e ▸ decodeOpcode_code h op⟩

/-- The listed codes are the integers from 0 to 8 (R41). -/
theorem exists_listed_code_iff {code : Int} : (∃ op, OpcodeCodes.listed.code op = code) ↔ 0 ≤ code ∧ code ≤ 8 := by
  constructor
  · rintro ⟨op, rfl⟩
    cases op <;> decide
  · rintro ⟨h0, h8⟩
    have hall : ∀ n : Fin 9, ∃ op ∈ Opcode.all, OpcodeCodes.listed.code op = n.val := by decide
    obtain ⟨op, -, hop⟩ := hall ⟨code.toNat, by omega⟩
    exact ⟨op, by simpa [h0] using hop⟩

/-- Settles O8: `decodeOpcode_eq_some_iff`, and the unknown Words are those outside the listed codes' interval. -/
theorem decoderReadsTheWholeCell : Obligations.DecoderReadsTheWholeCell := by
  unfold Obligations.DecoderReadsTheWholeCell
  refine ⟨fun codes code op h => decodeOpcode_eq_some_iff h, fun code => ?_⟩
  rw [decodeOpcode_eq_none, ← not_exists, exists_listed_code_iff]
  omega

/-! ### Instructions and their cells -/

/-- Under an injective table the cells that decode to `i` are the cells of `i`, whatever follows them. -/
theorem decode_eq_ok_iff {codes : OpcodeCodes} (h : codes.Injective) {cells rest : List Int} {i : Instr} :
    decode codes cells = .ok (i, rest) ↔ cells = encode codes i ++ rest := by
  cases cells with
  | nil => simp [decode, encode]
  | cons code tail =>
    rw [encode, List.cons_append, List.cons.injEq, eq_comm (a := code)]
    cases hd : decodeOpcode codes code with
    | none =>
      rw [decode_cons_of_none tail hd]
      exact iff_of_false (by simp) fun e => decodeOpcode_eq_none.1 hd i.opcode e.1
    | some op =>
      rw [decode_cons_of_some tail hd, assemble_ok, ← decodeOpcode_eq_some_iff h, hd, Option.some.injEq, eq_comm]

/-- Settles O9, the round trip in both directions. -/
theorem decodeInvertsEncode : Obligations.DecodeInvertsEncode := fun _ _ _ _ h => decode_eq_ok_iff h

/-! ### The decoder's refusals -/

theorem decode_eq_noOpcodeCell_iff {codes : OpcodeCodes} {cells : List Int} :
    decode codes cells = .error .noOpcodeCell ↔ cells = [] := by
  cases cells with
  | nil => exact iff_of_true rfl rfl
  | cons code tail =>
    refine iff_of_false (fun e => ?_) (by simp)
    cases hd : decodeOpcode codes code with
    | none => exact absurd ((decode_cons_of_none tail hd).symm.trans e) (by simp)
    | some op =>
      have he := assemble_error.1 ((decode_cons_of_some tail hd).symm.trans e)
      exact absurd he.2.2 (by simp)

theorem decode_eq_unknownOpcode_iff {codes : OpcodeCodes} {cells : List Int} {code : Int} :
    decode codes cells = .error (.unknownOpcode code) ↔
      (∀ op, codes.code op ≠ code) ∧ ∃ rest, cells = code :: rest := by
  constructor
  · intro e
    cases cells with
    | nil => cases e
    | cons c tail =>
      cases hd : decodeOpcode codes c with
      | none =>
        rw [decode_cons_of_none tail hd] at e
        cases e
        exact ⟨decodeOpcode_eq_none.1 hd, tail, rfl⟩
      | some op =>
        have he := assemble_error.1 ((decode_cons_of_some tail hd).symm.trans e)
        exact absurd he.2.2 (by simp)
  · rintro ⟨h, rest, rfl⟩
    exact decode_cons_of_none rest (decodeOpcode_eq_none.2 h)

theorem decode_eq_noOperandCell_iff {codes : OpcodeCodes} (h : codes.Injective) {cells : List Int} {op : Opcode} :
    decode codes cells = .error (.noOperandCell op) ↔ op.arity = 1 ∧ cells = [codes.code op] := by
  constructor
  · intro e
    cases cells with
    | nil => cases e
    | cons c tail =>
      cases hd : decodeOpcode codes c with
      | none => exact absurd ((decode_cons_of_none tail hd).symm.trans e) (by simp)
      | some op' =>
        obtain ⟨ha, rfl, he⟩ := assemble_error.1 ((decode_cons_of_some tail hd).symm.trans e)
        cases he
        exact ⟨ha, by rw [code_of_decodeOpcode hd]⟩
  · rintro ⟨ha, rfl⟩
    rw [decode_cons_of_some [] (decodeOpcode_code h op)]
    exact assemble_error.2 ⟨ha, rfl, rfl⟩

/-- Settles O10: one characterization for each of the decoder's errors. -/
theorem decoderRefusesByName : Obligations.DecoderRefusesByName := by
  unfold Obligations.DecoderRefusesByName
  intro codes cells h
  exact ⟨decode_eq_noOpcodeCell_iff, fun _ => decode_eq_unknownOpcode_iff, fun _ => decode_eq_noOperandCell_iff h⟩

/-! ### Instructions packed in one word -/

/-- The two's complement bits of a Word: its residue modulo 2^W, which is below 2^W. -/
theorem natCast_toNat_emod (width : Nat) (v : Int) : ((v % 2 ^ width).toNat : Int) = v % 2 ^ width :=
  Int.toNat_of_nonneg (Int.emod_nonneg v (by positivity))

theorem toNat_emod_lt (width : Nat) (v : Int) : (v % 2 ^ width).toNat < 2 ^ width := by
  have h := Int.emod_lt_of_pos v (show (0 : Int) < 2 ^ width by positivity)
  rw [← natCast_toNat_emod] at h
  exact_mod_cast h

/-- Two Words packed side by side are the two cells of the packed word. -/
theorem tableCells_pack {width : Nat} (hw : 1 ≤ width) {x y : Int} (hx : IsWord width x) (hy : IsWord width y) :
    tableCells width (2 * width) ((x % 2 ^ width).toNat + (y % 2 ^ width).toNat * 2 ^ width) = [x, y] := by
  have hlt : (x % 2 ^ width).toNat + (y % 2 ^ width).toNat * 2 ^ width < 2 ^ (2 * width) := by
    have := toNat_emod_lt width x
    have := toNat_emod_lt width y
    rw [two_mul, pow_add]
    nlinarith
  have hdiv : ((x % 2 ^ width).toNat + (y % 2 ^ width).toNat * 2 ^ width) / 2 ^ width = (y % 2 ^ width).toNat := by
    rw [Nat.add_mul_div_right _ _ (by positivity), Nat.div_eq_of_lt (toNat_emod_lt width x), Nat.zero_add]
  have hlow : wrapWord width ↑((x % 2 ^ width).toNat + (y % 2 ^ width).toNat * 2 ^ width) = x := by
    refine wrapWord_unique hw hx ?_
    push_cast
    rw [natCast_toNat_emod, natCast_toNat_emod, add_sub_right_comm]
    exact dvd_add (Int.dvd_emod_sub_self) (dvd_mul_left _ _)
  have hhigh : wrapWord width ↑(y % 2 ^ width).toNat = y := by
    refine wrapWord_unique hw hy ?_
    rw [natCast_toNat_emod]
    exact Int.dvd_emod_sub_self
  rw [tableCells, Nat.mod_eq_of_lt hlt, hdiv, hlow, hhigh]

/-- An encodable instruction's operand, or the 0 that fills an absent one's place, is a Word. -/
theorem isWord_operand_getD {width : Nat} {i : Instr} (h : i.Encodable width) :
    IsWord width (i.operand.getD 0) := by
  cases ho : i.operand with
  | none => exact isWord_zero width
  | some a =>
    rw [Instr.Encodable, ho] at h
    exact of_decide_eq_true h

/-- Settles O50: the packed word's cells are the instruction's, with a 0 after an instruction of one cell. -/
theorem packedWordDecodes : Obligations.PackedWordDecodes := by
  unfold Obligations.PackedWordDecodes
  intro width codes i hw hinj hcodes henc
  rw [tableCells_pack hw (hcodes _ i.opcode.mem_all) (isWord_operand_getD henc)]
  cases ho : i.operand with
  | none => exact ⟨[0], (decode_eq_ok_iff hinj).2 (by rw [encode, ho]; rfl)⟩
  | some a => exact ⟨[], (decode_eq_ok_iff hinj).2 (by rw [encode, ho]; rfl)⟩

/-- Settles O7, by running the decoder on the words. -/
theorem tableWordsDecode : Obligations.TableWordsDecode := by
  unfold Obligations.TableWordsDecode
  decide

end Sys2Proof.Machine
end

section
/-! SUPPORT. Proofs of the statements about the alu (R65, R66) and about all instructions together: where PC goes (R56,
R69, R70, R72), the frames, and what an instruction can answer (R54, R58). -/

namespace Sys2Proof.Machine

/-! ### The alu under policy wrap -/

/-- The zero test of the wrapped result holds exactly when the exact result is a multiple of 2^W. -/
theorem zero_wrapWord_iff {w : Nat} (h : 1 ≤ w) (v : Int) : zero (wrapWord w v) = true ↔ (2 : Int) ^ w ∣ v := by
  rw [zero, decide_eq_true_iff]
  constructor
  · intro h0
    have hd := wrapWord_congr w v
    rwa [h0, sub_zero] at hd
  · intro hd
    exact wrapWord_unique h (isWord_zero w) (by rwa [sub_zero])

/-- Narrowing under policy wrap: the one congruent Word, and its zero test. -/
theorem narrow_of_wrap_spec {c : Config} (hc : 1 ≤ c.wordWidth) (hp : c.overflowPolicy = .wrap) (exact : Int) :
    ∃ v, narrow c exact = some v ∧ IsWord c.wordWidth v ∧ (2 ^ c.wordWidth : Int) ∣ exact - v ∧
      (∀ u, IsWord c.wordWidth u → (2 ^ c.wordWidth : Int) ∣ exact - u → u = v) ∧
      (zero v = true ↔ (2 ^ c.wordWidth : Int) ∣ exact) :=
  ⟨wrapWord c.wordWidth exact, narrow_of_wrap hp exact, wrapWord_isWord hc exact, wrapWord_congr c.wordWidth exact,
    fun _ hu hd => (wrapWord_unique hc hu hd).symm, zero_wrapWord_iff hc exact⟩

/-- Settles O16: `narrow_of_wrap_spec` of the exact sum and of the exact difference. -/
theorem aluWrapsIntoTheSignedRange : Obligations.AluWrapsIntoTheSignedRange := fun _ x y hc hp =>
  ⟨narrow_of_wrap_spec hc hp (x + y), narrow_of_wrap_spec hc hp (x - y)⟩

/-! ### What each effect changes, field by field -/

section
variable {i : Instr} {s u : State}

theorem Effect.mem_eq (h : Effect i s u) (hi : i.opcode ≠ .store) : u.mem = s.mem := by
  cases h with
  | store => exact absurd rfl hi
  | halt | load | add | print | sub | jmp | jzTaken | jzNot | nop => rfl

theorem Effect.output_eq (h : Effect i s u) (hi : i.opcode ≠ .print) : u.output = s.output := by
  cases h with
  | print => exact absurd rfl hi
  | halt | load | add | store | sub | jmp | jzTaken | jzNot | nop => rfl

theorem Effect.runState_eq (h : Effect i s u) (hi : i.opcode ≠ .halt) : u.runState = s.runState := by
  cases h with
  | halt => exact absurd rfl hi
  | load | add | store | print | sub | jmp | jzTaken | jzNot | nop => rfl

/-- ACC and Z change by LOAD, ADD and SUB only. -/
theorem Effect.acc_z_eq (h : Effect i s u) (hi : ¬ (i.opcode = .load ∨ i.opcode = .add ∨ i.opcode = .sub)) :
    u.acc = s.acc ∧ u.z = s.z := by
  cases h with
  | load => exact absurd (.inl rfl) hi
  | add => exact absurd (.inr (.inl rfl)) hi
  | sub => exact absurd (.inr (.inr rfl)) hi
  | halt | store | print | jmp | jzTaken | jzNot | nop => exact ⟨rfl, rfl⟩

/-! ### Where PC goes -/

/-- HALT leaves PC (R72, C1). -/
theorem Effect.pc_of_halt (h : Effect i s u) (hi : i.opcode = .halt) : u.pc = s.pc := by
  cases h with
  | halt => rfl
  | load | add | store | print | sub | jmp | jzTaken | jzNot | nop => cases hi

/-- JMP and a taken JZ go to the operand address (R69, R70). -/
theorem Effect.pc_of_jump (h : Effect i s u) {a : Int} (ho : i.operand = some a)
    (hi : i.opcode = .jmp ∨ i.opcode = .jz ∧ s.z = true) : u.pc = a.toNat := by
  cases h with
  | jmp | jzTaken => cases ho; rfl
  | jzNot _ _ hz => simp [Instr.opcode, hz] at hi
  | halt | load | add | store | print | sub | nop => simp [Instr.opcode] at hi

/-- Every other instruction goes past its own cells (R56). -/
theorem Effect.pc_of_advance (h : Effect i s u) (hh : i.opcode ≠ .halt) (hj : i.opcode ≠ .jmp)
    (hz : i.opcode = .jz → s.z = false) : u.pc = s.pc + i.opcode.length := by
  cases h with
  | halt => exact absurd rfl hh
  | jmp => exact absurd rfl hj
  | jzTaken _ _ ht => exact absurd (ht.symm.trans (hz rfl)) (by decide)
  | load | add | store | print | sub | jzNot | nop => rfl

end

/-- Settles O23: the three PC rules of an effect, and the operand check that keeps a jump inside memory. -/
theorem programCounterRule : Obligations.ProgramCounterRule := by
  unfold Obligations.ProgramCounterRule
  intro i s t hw h
  obtain ⟨u, hu, rfl⟩ := exec_effect hw h
  refine ⟨fun hh hj hz => ?_, hu.pc_of_halt, fun a ho hi => ?_⟩
  · exact (hu.pc_of_advance hh hj hz).trans (Nat.add_assoc ..).symm
  · have hpc : (retired i s u).pc = a.toNat := hu.pc_of_jump ho hi
    exact ⟨hpc, hpc ▸ toNat_lt_memSize (inRange_of_wellFormed hw ho)⟩

/-! ### Frames -/

/-- A well-formed instruction's operand is in range, so an abort of its operand check contradicts well-formedness. -/
theorem not_wellFormed {i : Instr} {s : State} {a : Int} (ho : i.operand = some a) (h : ¬ InRange s a) :
    ¬ i.WellFormed s.config.memSize := fun hw => h (inRange_of_wellFormed hw ho)

/-- Settles O24: an abort writes the run state only, and of the three effects none touches memory or output. -/
theorem frameOfLoadAddSub : Obligations.FrameOfLoadAddSub := by
  unfold Obligations.FrameOfLoadAddSub
  intro i s t hi h
  rcases exec_cases h with ⟨a, ho, hr, rfl⟩ | ⟨-, u, hu, rfl⟩
  · exact ⟨fun _ => rfl, rfl, rfl, rfl, rfl, fun hw => absurd hw (not_wellFormed ho hr)⟩
  · have hne : i.opcode ≠ .store ∧ i.opcode ≠ .print ∧ i.opcode ≠ .halt := by
      rcases hi with e | e | e <;> rw [e] <;> decide
    obtain ⟨hstore, hprint, hhalt⟩ := hne
    obtain ⟨hconfig, hlabels, hcursor, -⟩ := hu.keeps
    exact ⟨readCell_congr (hu.mem_eq hstore), hu.output_eq hprint, hlabels, hcursor, hconfig,
      fun _ => hu.runState_eq hhalt⟩

/-- Settles O25: the write's own cell and its frame, or the abort, which writes no cell. -/
theorem frameOfStore : Obligations.FrameOfStore := by
  unfold Obligations.FrameOfStore
  intro a s t h
  by_cases hr : InRange s a
  · obtain rfl := Host.Outcome.next.inj ((withOperand_of_inRange _ hr).symm.trans h)
    rw [operandAddress_of_inRange hr]
    refine ⟨fun n hn => ?_, fun hn => (nomatch hn), rfl, rfl, rfl, rfl, rfl, rfl⟩
    obtain rfl := Option.some.inj hn
    exact ⟨readCell_writeCell_same a.toNat s.acc s, rfl, fun b hb => readCell_writeCell_of_ne hb s.acc s⟩
  · obtain rfl := Host.Outcome.next.inj ((withOperand_of_not_inRange _ hr).symm.trans h)
    rw [operandAddress_of_not_inRange hr]
    exact ⟨fun _ hn => (nomatch hn), fun _ _ => rfl, rfl, rfl, rfl, rfl, rfl, rfl⟩

/-- Settles O26: an abort writes the run state only, and of the five effects none touches ACC, Z or memory. -/
theorem frameOfControlAndSystem : Obligations.FrameOfControlAndSystem := by
  unfold Obligations.FrameOfControlAndSystem
  intro i s t hi h
  rcases exec_cases h with ⟨a, ho, hr, rfl⟩ | ⟨-, u, hu, rfl⟩
  · exact ⟨rfl, rfl, fun _ => rfl, rfl, rfl, rfl, fun _ => rfl, fun _ hw => absurd hw (not_wellFormed ho hr)⟩
  · have hne : i.opcode ≠ .store ∧ ¬ (i.opcode = .load ∨ i.opcode = .add ∨ i.opcode = .sub) := by
      generalize i.opcode = op at hi
      revert op
      decide
    obtain ⟨hstore, halu⟩ := hne
    obtain ⟨hconfig, hlabels, hcursor, -⟩ := hu.keeps
    obtain ⟨hacc, hz⟩ := hu.acc_z_eq halu
    exact ⟨hacc, hz, readCell_congr (hu.mem_eq hstore), hlabels, hcursor, hconfig, hu.output_eq,
      fun hhalt _ => hu.runState_eq hhalt⟩

/-! ### What an instruction can answer -/

/-- A retired effect counts one step and records it. -/
theorem Effect.retired_counts {i : Instr} {s u : State} (h : Effect i s u) :
    (retired i s u).stepCount = s.stepCount + 1 ∧ (retired i s u).trace.length = s.trace.length + 1 := by
  obtain ⟨-, -, -, htrace, hcount⟩ := h.keeps
  refine ⟨congrArg (· + 1) hcount, ?_⟩
  rw [retired, retire_trace, htrace, List.length_append, List.length_singleton]

/-- Settles O27: the three answers of `exec_result`, the last of which policy wrap excludes. -/
theorem instructionsAnswerANextState : Obligations.InstructionsAnswerANextState := by
  unfold Obligations.InstructionsAnswerANextState
  refine ⟨fun i s hp => ?_, fun i s f h => ?_, fun i s r h => ?_⟩
  · rcases exec_result i s with ⟨a, ho, hr, e⟩ | ⟨hw, u, hu, e⟩ | ⟨-, hf, -⟩
    · exact ⟨_, e, fun hw => absurd hw (not_wellFormed ho hr), fun b hb _ =>
        Option.some.inj (ho.symm.trans hb) ▸ abort_eq_withAbort .operandAddress a s⟩
    · exact ⟨_, e, fun _ => hu.retired_counts, fun b hb hr => absurd hw (not_wellFormed hb hr)⟩
    · exact absurd (hp.symm.trans hf) (by decide)
  · rcases exec_result i s with ⟨_, -, -, e⟩ | ⟨-, _, -, e⟩ | ⟨e, -⟩ <;> exact absurd (h.symm.trans e) (by simp)
  · rcases exec_result i s with ⟨_, -, -, e⟩ | ⟨-, _, -, e⟩ | ⟨e, hf, hi⟩
    · exact absurd (h.symm.trans e) (by simp)
    · exact absurd (h.symm.trans e) (by simp)
    · exact ⟨Host.Outcome.refused.inj (h.symm.trans e), hf, hi⟩

end Sys2Proof.Machine
end

section
/-! SUPPORT. Proofs of the statements about one step: the order of its checks (R80), what it runs (R49 to R59), and what
its outcome tells about the state it started from (R58, R59, R75 to R79). -/

namespace Sys2Proof.Machine

/-! ### The checks, one equation each -/

/-- A ready state runs the instruction whose cells stand at PC. -/
theorem step_of_cells {s : State} {i : Instr} (hs : s.Ready) (hinj : s.config.codes.Injective) (hpc : InRange s s.pc)
    (hcode : s.config.codes.code i.opcode = readCell s s.pc)
    (hcell : ∀ a, i.operand = some a → InRange s (s.pc + 1) ∧ readCell s (s.pc + 1) = a) : step s = exec i s := by
  have hwindow : ∃ rest, fetchWindow s = encode s.config.codes i ++ rest := by
    rw [encode, hcode]
    cases ho : i.operand with
    | none =>
      obtain ⟨rest, hw, -⟩ := fetchWindow_in hpc
      exact ⟨rest, hw⟩
    | some a =>
      obtain ⟨hin, rfl⟩ := hcell a ho
      exact ⟨[], fetchWindow_both hpc hin⟩
  obtain ⟨rest, hw⟩ := hwindow
  rw [step_of_ready hs, engineStep_of_decode ((decode_eq_ok_iff hinj).2 hw)]

theorem step_of_fetch_out {s : State} (hs : s.Ready) (hpc : ¬ InRange s s.pc) :
    step s = .next (withAbort .fetch s.pc s) := by
  rw [step_of_ready hs, engineStep, fetchWindow_out hpc]
  rfl

theorem step_of_unknown {s : State} (hs : s.Ready) (hpc : InRange s s.pc)
    (hop : ∀ op, s.config.codes.code op ≠ readCell s s.pc) : step s = .next (stopUnknown (readCell s s.pc) s) := by
  obtain ⟨rest, hw, -⟩ := fetchWindow_in hpc
  rw [step_of_ready hs, engineStep, hw, decode_cons_of_none rest (decodeOpcode_eq_none.2 hop)]

theorem step_of_operandCell_out {s : State} {op : Opcode} (hs : s.Ready) (hinj : s.config.codes.Injective)
    (hpc : InRange s s.pc) (hcell : ¬ InRange s (s.pc + 1)) (hcode : readCell s s.pc = s.config.codes.code op)
    (ha : op.arity = 1) : step s = .next (withAbort .operandCell (s.pc + 1) s) := by
  have hd : decode s.config.codes (fetchWindow s) = .error (.noOperandCell op) :=
    (decode_eq_noOperandCell_iff hinj).2 ⟨ha, by rw [fetchWindow_last hpc hcell, hcode]⟩
  rw [step_of_ready hs, engineStep, hd]
  rfl

/-- An opcode of arity 1 with a cell after it makes an instruction. -/
theorem exists_instr_of_arity_one {op : Opcode} (h : op.arity = 1) (a : Int) :
    ∃ i : Instr, i.opcode = op ∧ i.operand = some a := by
  cases op with
  | load => exact ⟨.load a, rfl, rfl⟩
  | add => exact ⟨.add a, rfl, rfl⟩
  | store => exact ⟨.store a, rfl, rfl⟩
  | sub => exact ⟨.sub a, rfl, rfl⟩
  | jmp => exact ⟨.jmp a, rfl, rfl⟩
  | jz => exact ⟨.jz a, rfl, rfl⟩
  | halt | print | nop => cases h

theorem step_of_operandAddress_out {s : State} {op : Opcode} (hs : s.Ready) (hinj : s.config.codes.Injective)
    (hpc : InRange s s.pc) (hcell : InRange s (s.pc + 1)) (hcode : readCell s s.pc = s.config.codes.code op)
    (ha : op.arity = 1) (hout : ¬ InRange s (readCell s (s.pc + 1))) :
    step s = .next (withAbort .operandAddress (readCell s (s.pc + 1)) s) := by
  obtain ⟨i, rfl, ho⟩ := exists_instr_of_arity_one ha (readCell s (s.pc + 1))
  rw [step_of_cells hs hinj hpc hcode.symm fun b hb => ⟨hcell, Option.some.inj (ho.symm.trans hb)⟩,
    exec_of_not_inRange ho hout, abort_eq_withAbort]

/-- Settles O28. -/
theorem stepRunsTheDecodedInstruction : Obligations.StepRunsTheDecodedInstruction :=
  fun _ _ hs hinj hpc hcode hcell => step_of_cells hs hinj hpc hcode hcell

/-- Settles O30: `stopUnknown` written out. -/
theorem unknownOpcodeStopsGracefully : Obligations.UnknownOpcodeStopsGracefully :=
  fun _ hs hpc hop => step_of_unknown hs hpc hop

/-- Settles O29: one equation of a step for each check, in the order in which the checks fall. -/
theorem stepChecksInOrder : Obligations.StepChecksInOrder := by
  unfold Obligations.StepChecksInOrder
  intro s hr hinj
  refine ⟨step_of_guard hr, fun hc => step_of_fetch_out ⟨hr, hc⟩,
    fun hc hpc hop => ⟨_, step_of_unknown ⟨hr, hc⟩ hpc hop, rfl⟩,
    fun op hc hpc hcode ha => ⟨fun hcell => ?_, fun hcell => ?_⟩⟩
  · exact step_of_operandCell_out ⟨hr, hc⟩ hinj hpc hcell hcode ha
  · exact step_of_operandAddress_out ⟨hr, hc⟩ hinj hpc hcell hcode ha

theorem writeRaw_of_not_inRange {s : State} {a : Int} (h : ¬ InRange s a) (v : Int) :
    writeRaw a v s = .error .outOfRangeAddress := by
  rw [writeRaw, cellAddress_of_not_inRange h]

/-- Settles O3: the decoder's interval, the three ways the core meets an address, and the loader's. -/
theorem everyAddressIsRangeChecked : Obligations.EveryAddressIsRangeChecked := by
  unfold Obligations.EveryAddressIsRangeChecked
  refine ⟨fun n a => inRange_iff, fun s hs hpc => ⟨.fetch, step_of_fetch_out hs hpc⟩,
    fun s op hs hinj hpc hcell hcode ha => ⟨.operandCell, step_of_operandCell_out hs hinj hpc hcell hcode ha⟩,
    fun s i a ho h => ⟨.operandAddress, exec_of_not_inRange ho h⟩, fun s a v h => writeRaw_of_not_inRange h v⟩

/-! ### What a step that answered did -/

/-- `Turn s t`: the four ways in which a turn of the run loop leads from `s` to `t`. -/
inductive Turn (s : State) : State → Prop where
  /-- The guard was reached (R61). -/
  | guard (hr : s.runState = .running) (hc : s.stepCount = s.config.maxSteps) : Turn s (expireGuard s)
  /-- An address was out of range (R58). -/
  | abort (hs : s.Ready) (kind : AddressKind) (addr : Int) (h : ¬ InRange s addr) : Turn s (abort kind addr s)
  /-- The cell at PC held no opcode's code (R52). -/
  | unknown (hs : s.Ready) (hpc : InRange s s.pc) (hop : ∀ op, s.config.codes.code op ≠ readCell s s.pc) :
    Turn s (stopUnknown (readCell s s.pc) s)
  /-- The instruction at PC had its effect (R55 to R57). -/
  | executed (hs : s.Ready) (hpc : InRange s s.pc) (i : Instr) (u : State)
    (hcode : s.config.codes.code i.opcode = readCell s s.pc) (hcell : ∀ a, i.operand = some a → InRange s (s.pc + 1))
    (hw : i.WellFormed s.config.memSize) (hu : Effect i s u) : Turn s (retired i s u)

/-- A step that answers a next state is one of the four turns. -/
theorem turn_of_step {s t : State} (h : step s = .next t) : Turn s t := by
  obtain ⟨hr, ⟨hc, rfl⟩ | ⟨hs, ⟨hpc, rfl⟩ | ⟨hpc, hop, rfl⟩ | ⟨-, hcell, rfl⟩ | ⟨i, hpc, hcode, hcell, he⟩⟩⟩ := step_cases h
  · exact .guard hr hc
  · exact .abort hs .fetch s.pc hpc
  · exact .unknown hs hpc hop
  · exact .abort hs .operandCell (s.pc + 1) hcell
  · rcases exec_cases he with ⟨a, -, ha, rfl⟩ | ⟨hw, u, hu, rfl⟩
    · exact .abort hs .operandAddress a ha
    · exact .executed hs hpc i u hcode (fun a ho => (hcell a ho).1) hw hu

/-- HALT, and no other instruction, writes the run state. -/
theorem Effect.runState_cases {i : Instr} {s u : State} (h : Effect i s u) :
    i.opcode = .halt ∧ u.runState = .halted ∨ i.opcode ≠ .halt ∧ u.runState = s.runState := by
  by_cases hi : i.opcode = .halt
  · cases h with
    | halt => exact .inl ⟨rfl, rfl⟩
    | load | add | store | print | sub | jmp | jzTaken | jzNot | nop => cases hi
  · exact .inr ⟨hi, h.runState_eq hi⟩

/-- Settles O31: of the four turns only the guard's leaves GuardExpired, and no effect and no abort does. -/
theorem guardExpiryIsTheLoopsOwn : Obligations.GuardExpiryIsTheLoopsOwn := by
  unfold Obligations.GuardExpiryIsTheLoopsOwn
  refine ⟨fun s t hr h => ?_, fun i s t h ht => ?_⟩
  · cases turn_of_step h with
    | guard _ hc => exact iff_of_true rfl hc
    | abort hs kind addr _ => exact iff_of_false (by simp) hs.2
    | unknown hs => exact iff_of_false (by simp) hs.2
    | executed hs _ i u _ _ _ hu =>
      refine iff_of_false ?_ hs.2
      rw [retired, retire_runState]
      rcases hu.runState_cases with ⟨-, e⟩ | ⟨-, e⟩
      · simp [e]
      · simp [e, hr]
  · rcases exec_cases h with ⟨a, -, -, rfl⟩ | ⟨-, u, hu, rfl⟩
    · cases ht
    · rcases hu.runState_cases with ⟨-, e⟩ | ⟨-, e⟩
      · exact absurd (e.symm.trans ht) (by decide)
      · exact e.symm.trans ht

/-- Settles O32: a state that is not Running faults, and a turn of a Running one does not. -/
theorem stepOnlyWhileRunning : Obligations.StepOnlyWhileRunning := by
  unfold Obligations.StepOnlyWhileRunning
  intro s f
  by_cases hr : s.runState = .running
  · refine iff_of_false (fun h => ?_) fun h => h.1 hr
    rcases step_of_running hr with ⟨t, ht⟩ | ⟨-, ht⟩ <;> exact absurd (h.symm.trans ht) (by simp)
  · rw [step_of_not_running hr, Host.Outcome.fault.injEq, eq_comm]
    exact ⟨fun e => ⟨hr, e⟩, fun e => e.2⟩

/-- Settles O33: Halted is left by no turn but that of an executed HALT. -/
theorem haltedOnlyByHalt : Obligations.HaltedOnlyByHalt := by
  unfold Obligations.HaltedOnlyByHalt
  intro s t h ht
  cases turn_of_step h with
  | guard | abort | unknown => cases ht
  | executed hs hpc i u hcode _ _ hu =>
    rcases hu.runState_cases with ⟨hi, -⟩ | ⟨-, e⟩
    · rw [hi] at hcode
      exact ⟨hs, hpc, hcode.symm⟩
    · exact absurd (hs.1.symm.trans (e.symm.trans ht)) (by decide)

/-- Settles O34: AbortedFatal is left by no turn but the abort, which writes the run state only. -/
theorem abortWritesNothing : Obligations.AbortWritesNothing := by
  unfold Obligations.AbortWritesNothing
  intro s t r h ht
  cases turn_of_step h with
  | guard | unknown => cases ht
  | abort => cases ht; rfl
  | executed hs _ i u _ _ _ hu =>
    rcases hu.runState_cases with ⟨-, e⟩ | ⟨-, e⟩
    · exact absurd (e.symm.trans ht) (by simp)
    · exact absurd (hs.1.symm.trans (e.symm.trans ht)) (by simp)

/-- Settles O35: the record of an executed instruction, or that of an unknown opcode. -/
theorem oneRecordPerCompletedStep : Obligations.OneRecordPerCompletedStep := by
  unfold Obligations.OneRecordPerCompletedStep
  intro s t hs h ht
  cases turn_of_step h with
  | guard _ hc => exact absurd hc hs.2
  | abort => exact absurd rfl (ht _)
  | unknown => exact ⟨unknownRecord (readCell s s.pc) s, rfl, rfl, rfl, rfl, rfl, .inl rfl⟩
  | executed _ _ i u hcode _ _ hu =>
    obtain ⟨-, -, -, htrace, -⟩ := hu.keeps
    exact ⟨recordOf i.opcode (i.operand.map Int.toNat) s u, congrArg (· ++ _) htrace, rfl, rfl, rfl, hu.retired_counts.1,
      .inr ⟨i.opcode, rfl, hcode⟩⟩

/-! ### A STORE into the next instruction -/

/-- What a STORE leaves for the next step to see. -/
theorem exec_store_spec {s t : State} {a : Int} (h : exec (.store a) s = .next t) (ha : InRange s a) :
    t.pc = s.pc + 2 ∧ t.config = s.config ∧ readCell t a.toNat = s.acc ∧
      ∀ b, b ≠ a.toNat → readCell t b = readCell s b := by
  obtain rfl := Host.Outcome.next.inj ((withOperand_of_inRange _ ha).symm.trans h)
  exact ⟨rfl, rfl, readCell_writeCell_same a.toNat s.acc s, fun b hb => readCell_writeCell_of_ne hb s.acc s⟩

/-- Settles O36: the stored cell is what the next fetch reads at its PC, or at the cell after it. -/
theorem storeIsSeenByTheNextFetch : Obligations.StoreIsSeenByTheNextFetch := by
  unfold Obligations.StoreIsSeenByTheNextFetch
  intro s t a h ha ht hinj
  obtain ⟨hpc, hconfig, hstored, hframe⟩ := exec_store_spec h ha
  have hcast : (t.pc : Int) = s.pc + 2 := by rw [hpc]; rfl
  have hcast' : (t.pc : Int) + 1 = s.pc + 3 := by omega
  have hin : ∀ x, InRange t x ↔ InRange s x := fun x => by rw [InRange, InRange, hconfig]
  have hlt := ha.2
  refine ⟨fun hat => ?_, fun hat i hcode ho => ?_⟩
  · have hpcIn : InRange t t.pc := (hin _).2 ⟨by omega, by omega⟩
    have hcell : readCell t t.pc = s.acc := by rw [hpc, ← hat, hstored]
    have hnext : readCell t (t.pc + 1) = readCell s (s.pc + 3) := by rw [hpc, hframe _ (by omega)]
    refine ⟨fun i hcode ho => ?_, fun op hcode harity hout => ?_, fun hop => ?_⟩
    · refine step_of_cells ht hinj hpcIn (by rw [hconfig, hcell, hcode]) fun b hb => ?_
      rw [hcast', hin, hnext]
      exact ho b hb
    · have hstep := step_of_operandCell_out ht hinj hpcIn (by rwa [hcast', hin]) (by rw [hconfig, hcell, hcode]) harity
      rwa [hcast'] at hstep
    · refine ⟨_, _, step_of_unknown ht hpcIn (by rwa [hconfig, hcell]), rfl, rfl, ?_⟩
      rw [unknownRecord_opcode, hcell]
  · have hpcIn : InRange t t.pc := (hin _).2 ⟨by omega, by omega⟩
    have hcell : readCell t t.pc = readCell s (s.pc + 2) := by rw [hpc, hframe _ (by omega)]
    refine step_of_cells ht hinj hpcIn (by rw [hconfig, hcell, hcode]) fun b hb => ⟨(hin _).2 ⟨by omega, by omega⟩, ?_⟩
    rw [hpc, show s.pc + 2 + 1 = a.toNat by omega, hstored]
    exact Option.some.inj (ho.symm.trans hb)

/-! ### An instruction placed for the next step -/

theorem readCell_placeCells_opcode (codes : OpcodeCodes) (i : Instr) (a : Nat) (s : State) :
    readCell (placeCells a (encode codes i) s) a = codes.code i.opcode := by
  rw [readCell_placeCells, if_pos le_rfl, Nat.sub_self, encode]
  rfl

theorem readCell_placeCells_operand (codes : OpcodeCodes) {i : Instr} {v : Int} (ho : i.operand = some v) (a : Nat)
    (s : State) : readCell (placeCells a (encode codes i) s) (a + 1) = v := by
  rw [readCell_placeCells, if_pos (Nat.le_succ a), Nat.add_sub_cancel_left, encode, ho]
  rfl

/-- Cells stored where the next step fetches them are the instruction it runs. -/
theorem step_placeCells_encode {s : State} {i : Instr} (hinj : s.config.codes.Injective)
    (h : CanFetch (encode s.config.codes i).length s) :
    step (placeCells s.pc (encode s.config.codes i) s) = exec i (placeCells s.pc (encode s.config.codes i) s) := by
  obtain ⟨hr, hc, hroom⟩ := h
  have hcode := readCell_placeCells_opcode s.config.codes i s.pc s
  have hoperand := fun v (ho : i.operand = some v) => readCell_placeCells_operand s.config.codes ho s.pc s
  rw [encode_length, ← i.operand_length] at hroom
  generalize ht : placeCells s.pc (encode s.config.codes i) s = t at hcode hoperand ⊢
  rw [placeCells_eq] at ht
  subst ht
  have hpc : InRange s s.pc := ⟨by omega, by omega⟩
  refine step_of_cells ⟨hr, hc⟩ hinj hpc hcode.symm fun v ho => ?_
  rw [ho, Option.toList_some, List.length_singleton] at hroom
  have hcell : InRange s (s.pc + 1) := ⟨by omega, by omega⟩
  exact ⟨hcell, hoperand v ho⟩

/-- The placed cells are the cells of the instruction the table word decodes to. -/
theorem withFetchWord_of_decode {s : State} {nbits w : Nat} {i : Instr} {rest : List Int}
    (hinj : s.config.codes.Injective)
    (h : decode s.config.codes (tableCells s.config.wordWidth nbits w) = .ok (i, rest)) :
    s.withFetchWord nbits w = placeInstruction (encode s.config.codes i) s := by
  have hcells : instructionCells s.config nbits w = encode s.config.codes i := by
    simp only [instructionCells, h]
    rw [(decode_eq_ok_iff hinj).1 h]
    exact List.take_left' (encode_length s.config.codes i)
  rw [State.withFetchWord, hcells]

theorem arity_le_one (op : Opcode) : op.arity ≤ 1 := by cases op <;> decide

/-- Settles O43: where the next step fetches, or at address 0 of a newly started run, the cells are there to be
fetched. -/
theorem placedWordRunsNext : Obligations.PlacedWordRunsNext := by
  unfold Obligations.PlacedWordRunsNext
  intro s nbits w i rest hwf hmem h
  obtain ⟨-, -, hsteps, hinj, -⟩ := hwf
  rw [withFetchWord_of_decode hinj h, placeInstruction]
  split
  · next hfetch => exact step_placeCells_encode hinj hfetch
  · have harity := arity_le_one i.opcode
    have hfetch : CanFetch (encode s.config.codes i).length (startRun s) := by
      refine ⟨rfl, ?_, ?_⟩
      · show 0 ≠ s.config.maxSteps
        omega
      · rw [encode_length, startRun_pc, startRun_config]
        omega
    exact step_placeCells_encode (s := startRun s) hinj hfetch

end Sys2Proof.Machine
end

section
/-! SUPPORT. Proofs of the statements about sound states: the canonical memory (R14), the state a session starts with
(R20, R21), and what every step keeps (`RunInv`). -/

namespace Sys2Proof.Machine

/-! ### Canonical memories -/

/-- Where two canonical memories read alike, the first's least listed address is listed in the second, so it is not
below the second's least. -/
theorem Memory.head_addr_le {c d : Nat × Int} {m n : Memory} (hm : Memory.Wf (c :: m)) (hn : Memory.Wf (d :: n))
    (h : ∀ a, Memory.read (c :: m) a = Memory.read (d :: n) a) : d.1 ≤ c.1 := by
  by_contra hlt
  have hd := (Memory.wf_cons.1 hn).1
  have hzero : Memory.read (d :: n) c.1 = 0 :=
    Memory.read_below (List.forall_mem_cons.2 ⟨by omega, fun e he => (not_le.1 hlt).trans (hd e he)⟩)
  rw [← h, Memory.read_cons, if_pos rfl] at hzero
  exact (Memory.wf_cons.1 hm).2.1 hzero

/-- Canonical memories that read alike are equal. -/
theorem Memory.eq_of_read_eq {m n : Memory} (hm : Memory.Wf m) (hn : Memory.Wf n)
    (h : ∀ a, Memory.read m a = Memory.read n a) : m = n := by
  induction m generalizing n with
  | nil =>
    cases n with
    | nil => rfl
    | cons d n => exact absurd (by simpa using (h d.1).symm) (Memory.wf_cons.1 hn).2.1
  | cons c m ih =>
    cases n with
    | nil => exact absurd (by simpa using h c.1) (Memory.wf_cons.1 hm).2.1
    | cons d n =>
      obtain ⟨hcm, -, hm'⟩ := Memory.wf_cons.1 hm
      obtain ⟨hdn, -, hn'⟩ := Memory.wf_cons.1 hn
      have haddr : c.1 = d.1 := le_antisymm (Memory.head_addr_le hn hm fun a => (h a).symm) (Memory.head_addr_le hm hn h)
      have hword : c.2 = d.2 := by simpa [haddr] using h c.1
      have htail : m = n := ih hm' hn' fun a => by
        by_cases ha : a = c.1
        · rw [ha, Memory.read_below hcm, haddr, Memory.read_below hdn]
        · simpa [ha, ← haddr] using h a
      rw [htail, Prod.ext haddr hword]

/-- Settles O5. -/
theorem memoryFormIsCanonical : Obligations.MemoryFormIsCanonical :=
  ⟨fun _ a v h => Memory.wf_write a v h, fun _ _ hm hn h => Memory.eq_of_read_eq hm hn h⟩

/-! ### Sound stores -/

/-- A sound store speaks of the parameters, the cells, the labels and the cursor only. -/
theorem StoreInv.of_eq {s t : State} (h : StoreInv s) (hconfig : t.config = s.config) (hmem : t.mem = s.mem)
    (hlabels : t.labels = s.labels) (hcursor : t.cursor = s.cursor) : StoreInv t where
  config_wf := by rw [hconfig]; exact h.config_wf
  mem_wf := by rw [hmem]; exact h.mem_wf
  mem_words := by rw [hconfig, hmem]; exact h.mem_words
  mem_inside := by rw [hconfig, hmem]; exact h.mem_inside
  labels_wf := by rw [hlabels]; exact h.labels_wf
  labels_inside := by rw [hconfig, hlabels]; exact h.labels_inside
  cursor_le := by rw [hconfig, hcursor]; exact h.cursor_le

/-- Writing a Word inside memory keeps the store sound. -/
theorem StoreInv.writeCell {s : State} (h : StoreInv s) {a : Nat} {v : Int} (ha : a < s.config.memSize)
    (hv : IsWord s.config.wordWidth v) : StoreInv (writeCell a v s) :=
  { h with
    mem_wf := Memory.wf_write a v h.mem_wf
    mem_words := Memory.forall_write h.mem_words hv
    mem_inside := Memory.forall_write h.mem_inside ha }

/-- An empty store of well-formed parameters is sound. -/
theorem storeInv_of_empty {s : State} (hconfig : s.config.WellFormed) (hmem : s.mem = []) (hlabels : s.labels = [])
    (hcursor : s.cursor = 0) : StoreInv s where
  config_wf := hconfig
  mem_wf := by rw [hmem]; exact Memory.wf_nil
  mem_words := by rw [hmem]; exact List.forall_mem_nil _
  mem_inside := by rw [hmem]; exact List.forall_mem_nil _
  labels_wf := by rw [hlabels]; exact List.Pairwise.nil
  labels_inside := by rw [hlabels]; exact List.forall_mem_nil _
  cursor_le := by rw [hcursor]; exact Nat.zero_le _

/-- Run start on a sound store gives a sound run state (R94). -/
theorem StoreInv.runInv_startRun {s : State} (h : StoreInv s) : RunInv (startRun s) where
  store := h.of_eq rfl rfl rfl rfl
  pc_le := Nat.zero_le _
  acc_word := isWord_zero _
  count_le := Nat.zero_le _
  count_eq := rfl
  last_record := rfl
  output_words := List.forall_mem_nil _
  printed := rfl
  records_sound := List.forall_mem_nil _
  status := List.forall_mem_nil _

/-- Settles O38: a session's first state is a run start on an empty store. -/
theorem initialStateIsSound : Obligations.InitialStateIsSound := by
  unfold Obligations.InitialStateIsSound
  have hinitial : ∀ c : Config, c.WellFormed → RunInv (State.initial c) := fun c hc =>
    (storeInv_of_empty (s := State.initial c) hc rfl rfl rfl).runInv_startRun
  exact ⟨hinitial, hinitial Config.reference (by decide)⟩

/-! ### What an effect keeps -/

/-- An instruction whose cells lie inside memory ends at most at MEM_SIZE (R53). -/
theorem pc_add_length_le {i : Instr} {s : State} (hpc : InRange s s.pc)
    (hcell : ∀ a, i.operand = some a → InRange s (s.pc + 1)) : s.pc + i.opcode.length ≤ s.config.memSize := by
  have hlt := hpc.2
  rw [Opcode.length, ← i.operand_length]
  cases ho : i.operand with
  | none =>
    rw [Option.toList_none, List.length_nil]
    omega
  | some a =>
    have hlt' := (hcell a ho).2
    rw [Option.toList_some, List.length_singleton]
    omega

section
variable {i : Instr} {s u : State}

theorem Effect.pc_le (hu : Effect i s u) (hw : i.WellFormed s.config.memSize)
    (hroom : s.pc + i.opcode.length ≤ s.config.memSize) : u.pc ≤ s.config.memSize := by
  cases hu with
  | halt => exact (Nat.le_add_right ..).trans hroom
  | jmp | jzTaken => exact (toNat_lt_memSize (inRange_of_wellFormed hw rfl)).le
  | load | add | store | print | sub | jzNot | nop => exact hroom

theorem Effect.storeInv (hu : Effect i s u) (hw : i.WellFormed s.config.memSize) (h : StoreInv s)
    (ha : IsWord s.config.wordWidth s.acc) : StoreInv u := by
  cases hu with
  | store => exact (h.writeCell (toNat_lt_memSize (inRange_of_wellFormed hw rfl)) ha).of_eq rfl rfl rfl rfl
  | halt | load | add | print | sub | jmp | jzTaken | jzNot | nop => exact h.of_eq rfl rfl rfl rfl

/-- The output grows by what a PRINT record says: the ACC the step leaves (R73). -/
theorem Effect.output_eq_append (hu : Effect i s u) :
    u.output = s.output ++ if i.opcode = .print then [u.acc] else [] := by
  cases hu with
  | print => rfl
  | halt | load | add | store | sub | jmp | jzTaken | jzNot | nop => exact (List.append_nil s.output).symm

/-- The operand a record names is a cell, for the operand check has passed (R54). -/
theorem recorded_operand_lt (hw : i.WellFormed s.config.memSize) :
    ∀ n ∈ i.operand.map Int.toNat, n < s.config.memSize := by
  intro n hn
  obtain ⟨a, ha, rfl⟩ := Option.mem_map.1 hn
  exact toNat_lt_memSize (inRange_of_wellFormed hw ha)

end

/-! ### What every turn keeps -/

theorem statusMatches_of_running {s : State} (h : s.runState = .running) :
    StatusMatches s ↔ ∀ r ∈ s.trace, r.Continues := by
  unfold StatusMatches
  rw [h]

theorem statusMatches_of_halted {s : State} (h : s.runState = .halted) :
    StatusMatches s ↔ ∃ before r, s.trace = before ++ [r] ∧ r.opcode = .known .halt ∧ r.pc = s.pc ∧
      ∀ q ∈ before, q.Continues := by
  unfold StatusMatches
  rw [h]

/-- All records of a sound running state are of steps after which the run goes on. -/
theorem RunInv.continues {s : State} (h : RunInv s) (hr : s.runState = .running) : ∀ r ∈ s.trace, r.Continues :=
  (statusMatches_of_running hr).1 h.status

/-- A write of the run state alone keeps soundness if the new one agrees with the trace. -/
theorem RunInv.with_runState {s : State} (h : RunInv s) {r : RunState} (hr : StatusMatches { s with runState := r }) :
    RunInv { s with runState := r } :=
  { h with
    store := h.store.of_eq rfl rfl rfl rfl
    status := hr }

theorem RunInv.expireGuard {s : State} (h : RunInv s) (hr : s.runState = .running)
    (hc : s.stepCount = s.config.maxSteps) : RunInv (expireGuard s) :=
  h.with_runState ⟨hc, h.continues hr⟩

theorem RunInv.abort {s : State} (h : RunInv s) (hr : s.runState = .running) (kind : AddressKind) {addr : Int}
    (ha : ¬ InRange s addr) : RunInv (abort kind addr s) :=
  h.with_runState ⟨ha, h.continues hr⟩

theorem RunInv.stopUnknown {s : State} (h : RunInv s) (hs : s.Ready) (hpc : s.pc < s.config.memSize) (code : Int) :
    RunInv (stopUnknown code s) where
  store := h.store.of_eq rfl rfl rfl rfl
  pc_le := h.pc_le
  acc_word := h.acc_word
  count_le := Nat.lt_of_le_of_ne h.count_le hs.2
  count_eq := by rw [stopUnknown_stepCount, stopUnknown_trace, List.length_append, List.length_singleton, h.count_eq]
  last_record := finalRegisters_append s.trace (unknownRecord code s)
  output_words := h.output_words
  printed := by
    rw [stopUnknown_output, stopUnknown_trace, printedWords_append, ← h.printed]
    exact (List.append_nil s.output).symm
  records_sound :=
    List.forall_mem_append.2 ⟨h.records_sound, List.forall_mem_singleton.2 ⟨hpc, fun _ ho => (nomatch ho), h.acc_word⟩⟩
  status := ⟨s.trace, unknownRecord code s, code, rfl, rfl, rfl, h.continues hs.1⟩

/-- The run state after an executed instruction agrees with the trace: a HALT record is the last, and any other lets
the run go on (R72, R75). -/
theorem Effect.statusMatches {i : Instr} {s u : State} (hu : Effect i s u) (h : RunInv s) (hr : s.runState = .running) :
    StatusMatches (retired i s u) := by
  obtain ⟨-, -, -, htrace, -⟩ := hu.keeps
  rcases hu.runState_cases with ⟨hi, hhalted⟩ | ⟨hi, hkept⟩
  · exact (statusMatches_of_halted (s := retired i s u) hhalted).2
      ⟨s.trace, recordOf i.opcode (i.operand.map Int.toNat) s u, congrArg (· ++ _) htrace, congrArg RecordedOpcode.known hi,
        (hu.pc_of_halt hi).symm, h.continues hr⟩
  · refine (statusMatches_of_running (s := retired i s u) (hkept.trans hr)).2 ?_
    rw [retired, retire_trace, htrace]
    exact List.forall_mem_append.2 ⟨h.continues hr, List.forall_mem_singleton.2 hi⟩

theorem RunInv.retired {i : Instr} {s u : State} (h : RunInv s) (hs : s.Ready) (hpc : InRange s s.pc)
    (hcell : ∀ a, i.operand = some a → InRange s (s.pc + 1)) (hw : i.WellFormed s.config.memSize) (hu : Effect i s u) :
    RunInv (retired i s u) := by
  obtain ⟨hconfig, -, -, htrace, hcount⟩ := hu.keeps
  have hacc := hu.acc_isWord h.store h.acc_word
  have hlt : s.pc < s.config.memSize := by exact_mod_cast hpc.2
  rw [Machine.retired]
  exact {
    store := (hu.storeInv hw h.store h.acc_word).of_eq rfl rfl rfl rfl
    pc_le := by
      rw [retire_config, hconfig]
      exact hu.pc_le hw (pc_add_length_le hpc hcell)
    acc_word := by
      rw [retire_config, hconfig]
      exact hacc
    count_le := by
      rw [retire_config, hconfig, retire_stepCount, hcount]
      exact Nat.lt_of_le_of_ne h.count_le hs.2
    count_eq := by
      rw [retire_stepCount, retire_trace, htrace, hcount, List.length_append, List.length_singleton, h.count_eq]
    last_record := finalRegisters_append u.trace _
    output_words := by
      rw [retire_config, hconfig, retire_output, hu.output_eq_append]
      refine List.forall_mem_append.2 ⟨h.output_words, ?_⟩
      split
      · exact List.forall_mem_singleton.2 hacc
      · exact List.forall_mem_nil _
    printed := by
      rw [retire_output, retire_trace, htrace, printedWords_append, ← h.printed, hu.output_eq_append]
      simp only [recordOf_opcode, RecordedOpcode.known.injEq, recordOf_acc]
    records_sound := by
      rw [retire_config, hconfig, retire_trace, htrace]
      exact List.forall_mem_append.2
        ⟨h.records_sound, List.forall_mem_singleton.2 ⟨hlt, recorded_operand_lt hw, hacc⟩⟩
    status := hu.statusMatches h hs.1 }

theorem RunInv.step {s t : State} (h : RunInv s) (hstep : step s = .next t) : RunInv t := by
  cases turn_of_step hstep with
  | guard hr hc => exact h.expireGuard hr hc
  | abort hs kind addr ha => exact h.abort hs.1 kind ha
  | unknown hs hpc => exact h.stopUnknown hs (by exact_mod_cast hpc.2) _
  | executed hs hpc i u _ hcell hw hu => exact h.retired hs hpc hcell hw hu

/-- Settles O39: each of the four turns keeps a sound state sound. -/
theorem stepKeepsTheStateSound : Obligations.StepKeepsTheStateSound := fun _ _ h hstep => h.step hstep

end Sys2Proof.Machine
end

section
/-! SUPPORT. Proofs of the statements about whole runs (R60, R61, R22, R96) and of what a step never reads (R17, R18). -/

namespace Sys2Proof.Machine

/-! ### What no turn writes -/

/-- No turn writes a parameter, a label or the cursor. -/
theorem Turn.keeps {s t : State} (h : Turn s t) :
    t.config = s.config ∧ t.labels = s.labels ∧ t.cursor = s.cursor := by
  cases h with
  | guard | abort | unknown => exact ⟨rfl, rfl, rfl⟩
  | executed _ _ _ _ _ _ _ hu =>
    obtain ⟨hconfig, hlabels, hcursor, -⟩ := hu.keeps
    exact ⟨hconfig, hlabels, hcursor⟩

/-- The trace and the output only grow. -/
theorem Turn.extends {s t : State} (h : Turn s t) : s.trace <+: t.trace ∧ s.output <+: t.output := by
  cases h with
  | guard | abort => exact ⟨List.prefix_rfl, List.prefix_rfl⟩
  | unknown => exact ⟨List.prefix_append s.trace _, List.prefix_rfl⟩
  | executed _ _ _ _ _ _ _ hu =>
    obtain ⟨-, -, -, htrace, -⟩ := hu.keeps
    rw [retired, retire_trace, retire_output, htrace, hu.output_eq_append]
    exact ⟨List.prefix_append s.trace _, List.prefix_append s.output _⟩

/-- The loop writes no parameter, label or cursor either. -/
theorem runLoop_keeps_host {k : Nat} {s t : State} (h : runLoop k s = .next t) :
    t.config = s.config ∧ t.labels = s.labels ∧ t.cursor = s.cursor := by
  refine runLoop_keeps (P := fun u => u.config = s.config ∧ u.labels = s.labels ∧ u.cursor = s.cursor) ?_ k
    ⟨rfl, rfl, rfl⟩ h
  rintro u v ⟨h1, h2, h3⟩ hstep
  obtain ⟨h4, h5, h6⟩ := (turn_of_step hstep).keeps
  exact ⟨h4.trans h1, h5.trans h2, h6.trans h3⟩

theorem runToEnd_keeps_host {s t : State} (h : runToEnd s = .next t) :
    t.config = s.config ∧ t.labels = s.labels ∧ t.cursor = s.cursor :=
  runLoop_keeps_host (s := startRun s) h

theorem runLoop_extends {k : Nat} {s t : State} (h : runLoop k s = .next t) :
    s.trace <+: t.trace ∧ s.output <+: t.output := by
  refine runLoop_keeps (P := fun u => s.trace <+: u.trace ∧ s.output <+: u.output) ?_ k
    ⟨List.prefix_rfl, List.prefix_rfl⟩ h
  rintro u v ⟨h1, h2⟩ hstep
  obtain ⟨h3, h4⟩ := (turn_of_step hstep).extends
  exact ⟨h1.trans h3, h2.trans h4⟩

/-! ### Every run ends -/

/-- The counter counts the records and has not passed the guard: what bounds a run, on any memory and parameters. -/
def Counted (s : State) : Prop := s.stepCount = s.trace.length ∧ s.stepCount ≤ s.config.maxSteps

theorem counted_startRun (s : State) : Counted (startRun s) := ⟨rfl, Nat.zero_le _⟩

/-- Every turn keeps `Counted`, and one that leaves the run going has counted a step. -/
theorem Counted.turn {s t : State} (h : Counted s) (ht : Turn s t) :
    Counted t ∧ (t.runState = .running → t.stepCount = s.stepCount + 1) := by
  obtain ⟨heq, hle⟩ := h
  cases ht with
  | guard | abort => exact ⟨⟨heq, hle⟩, fun hr => by cases hr⟩
  | unknown hs =>
    refine ⟨⟨?_, Nat.lt_of_le_of_ne hle hs.2⟩, fun _ => rfl⟩
    rw [stopUnknown_stepCount, stopUnknown_trace, List.length_append, List.length_singleton, heq]
  | executed hs _ i u _ _ _ hu =>
    obtain ⟨hcount, htrace⟩ := hu.retired_counts
    refine ⟨⟨by rw [hcount, htrace, heq], ?_⟩, fun _ => hcount⟩
    have hconfig : (retired i s u).config = s.config := hu.keeps.1
    rw [hcount, hconfig]
    exact Nat.lt_of_le_of_ne hle hs.2

/-- With more turns left than the guard leaves steps, the loop ends, or refuses an overflow. -/
theorem runLoop_ends {k : Nat} {s : State} (h : Counted s) (hk : s.config.maxSteps < s.stepCount + k) :
    (∃ t, runLoop k s = .next t ∧ t.runState ≠ .running ∧ Counted t) ∨
      s.config.overflowPolicy = .fault ∧ runLoop k s = .refused .arithmeticOverflow := by
  induction k generalizing s with
  | zero => exact absurd h.2 (by omega)
  | succ k ih =>
    by_cases hr : s.runState = .running
    · rcases step_of_running hr with ⟨t, ht⟩ | ⟨hf, hrefused⟩
      · rw [runLoop_succ_of_next hr ht]
        have hturn := turn_of_step ht
        obtain ⟨hcounted, hcount⟩ := h.turn hturn
        by_cases hrt : t.runState = .running
        · rw [← hturn.keeps.1] at hk ⊢
          exact ih hcounted (by rw [hcount hrt]; omega)
        · exact .inl ⟨t, runLoop_of_ended hrt k, hrt, hcounted⟩
      · exact .inr ⟨hf, runLoop_succ_of_refused hr hrefused k⟩
    · exact .inl ⟨s, runLoop_of_ended hr (k + 1), hr, h⟩

theorem runToEnd_ends (s : State) :
    (∃ t, runToEnd s = .next t ∧ t.runState ≠ .running ∧ Counted t) ∨
      s.config.overflowPolicy = .fault ∧ runToEnd s = .refused .arithmeticOverflow :=
  runLoop_ends (counted_startRun s) (by rw [startRun_config, startRun_stepCount, runFuel]; omega)

/-- The state a run stops in is no longer Running, and its records are within the guard of the run's parameters. -/
theorem runToEnd_ended {s t : State} (h : runToEnd s = .next t) :
    t.runState ≠ .running ∧ t.trace.length ≤ s.config.maxSteps := by
  rcases runToEnd_ends s with ⟨u, hu, hr, heq, hle⟩ | ⟨-, hu⟩
  · obtain rfl := Host.Outcome.next.inj (h.symm.trans hu)
    rw [heq, (runToEnd_keeps_host h).1] at hle
    exact ⟨hr, hle⟩
  · exact absurd (h.symm.trans hu) (by simp)

/-- Settles O40: MAX_STEPS + 1 turns are more than the guard leaves steps. -/
theorem everyRunEnds : Obligations.EveryRunEnds := by
  unfold Obligations.EveryRunEnds
  exact fun s => (runToEnd_ends s).imp_left fun ⟨t, ht, _⟩ => ⟨t, ht, runToEnd_ended ht⟩

/-! ### What a run returns -/

theorem runState_code_of_ended {r : RunState} (h : r ≠ .running) : 1 ≤ r.code ∧ r.code ≤ 4 := by
  cases r with
  | running => exact absurd rfl h
  | halted | abortedFatal | stoppedUnknownOpcode | guardExpired => exact ⟨by simp [RunState.code], by simp [RunState.code]⟩

/-- A run answers the result of the state its loop stopped in, and that state cleared. -/
theorem run_eq_next {s u : State} {res : RunResult} (h : run s = .next (res, u)) :
    ∃ t, runToEnd s = .next t ∧ res = resultOf t ∧ u = postRunClear t := by
  rw [run] at h
  cases e : runToEnd s with
  | next t =>
    rw [e] at h
    cases h
    exact ⟨t, rfl, rfl, rfl⟩
  | fault f | refused r =>
    rw [e] at h
    cases h

theorem StoreInv.runInv_runToEnd {s t : State} (h : StoreInv s) (ht : runToEnd s = .next t) : RunInv t :=
  runLoop_keeps (fun _ _ hs hstep => hs.step hstep) _ h.runInv_startRun ht

theorem StoreInv.postRunClear {s : State} (h : StoreInv s) : StoreInv (postRunClear s) :=
  storeInv_of_empty h.config_wf rfl rfl rfl

/-- Settles O41: the loop keeps soundness, so the result is a sound state's; what is cleared is empty, and a new run
starts on it. -/
theorem runReturnsASoundResultAndClears : Obligations.RunReturnsASoundResultAndClears := by
  unfold Obligations.RunReturnsASoundResultAndClears
  intro s u res hs h
  obtain ⟨t, ht, rfl, rfl⟩ := run_eq_next h
  have hinv := hs.runInv_runToEnd ht
  obtain ⟨hended, htrace⟩ := runToEnd_ended ht
  obtain ⟨hcode, hcode'⟩ := runState_code_of_ended hended
  obtain ⟨hconfig, hlabels, -⟩ := runToEnd_keeps_host ht
  exact ⟨hcode, hcode', htrace, hinv.printed, hlabels, hinv.store.mem_wf,
    ⟨t, ht, rfl, rfl, rfl, rfl, rfl, hinv.last_record⟩,
    fun a => ⟨readCell_of_mem_nil (postRunClear_mem t) a, find_of_labels_nil (postRunClear_labels t) a⟩,
    rfl, rfl, hconfig, hinv.store.postRunClear.runInv_startRun⟩

/-! ### What the core never reads -/

/-- `s` with another MAX_STEPS, other labels and another cursor: the fields the core does not read. -/
def rehost (m : Nat) (l : Labels) (c : Nat) (s : State) : State :=
  { s with config := { s.config with maxSteps := m }, labels := l, cursor := c }

/-- An answer whose next state, if it is one, is changed. -/
def mapNext (f : State → State) : Result → Result
  | .next t => .next (f t)
  | .fault e => .fault e
  | .refused r => .refused r

section
variable (m : Nat) (l : Labels) (c : Nat)

theorem withOperand_rehost (a : Int) (s : State) {f g : Nat → Result} (h : ∀ n, f n = mapNext (rehost m l c) (g n)) :
    withOperand a (rehost m l c s) f = mapNext (rehost m l c) (withOperand a s g) := by
  by_cases ha : InRange s a
  · have ha' : InRange (rehost m l c s) a := ha
    rw [withOperand_of_inRange f ha', withOperand_of_inRange g ha, h]
  · have ha' : ¬ InRange (rehost m l c s) a := ha
    rw [withOperand_of_not_inRange f ha', withOperand_of_not_inRange g ha]
    rfl

theorem finishArithmetic_rehost (op : Opcode) (n : Nat) (result : Option Int) (s : State) :
    finishArithmetic op n result (rehost m l c s) = mapNext (rehost m l c) (finishArithmetic op n result s) := by
  cases result with
  | none => rfl
  | some v => rfl

/-- An instruction answers the same, whatever the fields it does not read. -/
theorem exec_rehost (i : Instr) (s : State) :
    exec i (rehost m l c s) = mapNext (rehost m l c) (exec i s) := by
  cases i with
  | halt | print | nop => rfl
  | load a | store a | jmp a => exact withOperand_rehost m l c a s fun _ => rfl
  | add a => exact withOperand_rehost m l c a s fun n => finishArithmetic_rehost m l c .add n _ s
  | sub a => exact withOperand_rehost m l c a s fun n => finishArithmetic_rehost m l c .sub n _ s
  | jz a =>
    have hnext : ∀ n, (if s.z then jumpTo n (rehost m l c s) else advance .jz (rehost m l c s)) =
        rehost m l c (if s.z then jumpTo n s else advance .jz s) := fun n =>
      (apply_ite (rehost m l c) (s.z = true) (jumpTo n s) (advance .jz s)).symm
    exact withOperand_rehost m l c a s fun n => congrArg Host.Outcome.next (congrArg (retire .jz (some n) _) (hnext n))

theorem engineStep_rehost (s : State) :
    engineStep (rehost m l c s) = mapNext (rehost m l c) (engineStep s) := by
  have hwindow : decode (rehost m l c s).config.codes (fetchWindow (rehost m l c s)) =
      decode s.config.codes (fetchWindow s) := rfl
  rw [engineStep, engineStep, hwindow]
  cases decode s.config.codes (fetchWindow s) with
  | ok p => exact exec_rehost m l c p.1 s
  | error e => cases e <;> rfl

/-- A turn answers the same if the other MAX_STEPS finds the guard in the same place. -/
theorem step_rehost {s : State} (hm : s.stepCount = m ↔ s.stepCount = s.config.maxSteps) :
    step (rehost m l c s) = mapNext (rehost m l c) (step s) := by
  by_cases hr : s.runState = .running
  · by_cases hc : s.stepCount = s.config.maxSteps
    · rw [step_of_guard hr hc, step_of_guard (s := rehost m l c s) hr (hm.2 hc)]
      rfl
    · rw [step_of_ready ⟨hr, hc⟩, step_of_ready (s := rehost m l c s) ⟨hr, fun e => hc (hm.1 e)⟩, engineStep_rehost]
  · rw [step_of_not_running hr, step_of_not_running (s := rehost m l c s) hr]
    rfl

end

/-- Settles O37: `step_rehost` under the same MAX_STEPS, and `Turn.keeps`. -/
theorem hostStateIsNeverRead : Obligations.HostStateIsNeverRead := by
  unfold Obligations.HostStateIsNeverRead
  intro s l c
  have hstep : step { s with labels := l, cursor := c } = mapNext (rehost s.config.maxSteps l c) (step s) :=
    step_rehost s.config.maxSteps l c Iff.rfl
  refine ⟨fun t ht => ?_, fun f hf => ?_, fun r hr => ?_⟩
  · obtain ⟨hconfig, hlabels, hcursor⟩ := (turn_of_step ht).keeps
    refine ⟨?_, hlabels, hcursor, hconfig⟩
    rw [hstep, ht, ← hconfig]
    rfl
  · rw [hstep, hf]
    rfl
  · rw [hstep, hr]
    rfl

/-! ### The guard truncates -/

theorem runLoop_rehost_of_ended {m : Nat} {l : Labels} {c k k' : Nat} {s t t' : State} (hr : s.runState ≠ .running)
    (h : runLoop k s = .next t) (h' : runLoop k' (rehost m l c s) = .next t') : t' = rehost m l c t := by
  obtain rfl := Host.Outcome.next.inj ((runLoop_of_ended hr k).symm.trans h)
  exact (Host.Outcome.next.inj ((runLoop_of_ended (s := rehost m l c s) hr k').symm.trans h')).symm

/-- The loop under a larger MAX_STEPS goes through the same states as far as the smaller one lets it, and ends in the
same state if that was not the guard's doing. -/
theorem runLoop_truncated {m : Nat} {l : Labels} {c k k' : Nat} {s t t' : State} (hm : s.config.maxSteps ≤ m)
    (hk : k ≤ k') (hs : Counted s) (h : runLoop k s = .next t) (ht : t.runState ≠ .running)
    (h' : runLoop k' (rehost m l c s) = .next t') :
    t.trace <+: t'.trace ∧ t.output <+: t'.output ∧ (t.runState ≠ .guardExpired → t' = rehost m l c t) := by
  induction k generalizing s k' with
  | zero =>
    obtain rfl := Host.Outcome.next.inj h
    obtain rfl := runLoop_rehost_of_ended ht h h'
    exact ⟨List.prefix_rfl, List.prefix_rfl, fun _ => rfl⟩
  | succ k ih =>
    by_cases hr : s.runState = .running
    · obtain ⟨k', rfl⟩ := Nat.exists_eq_add_of_le' (Nat.one_le_of_lt hk)
      by_cases hc : s.stepCount = s.config.maxSteps
      · rw [runLoop_succ_of_next hr (step_of_guard hr hc), runLoop_of_ended (by simp)] at h
        obtain rfl := Host.Outcome.next.inj h
        obtain ⟨htrace, houtput⟩ := runLoop_extends h'
        exact ⟨htrace, houtput, fun hne => absurd rfl hne⟩
      · rcases step_of_running hr with ⟨u, hu⟩ | ⟨-, hu⟩
        · have hlt : s.stepCount < s.config.maxSteps := Nat.lt_of_le_of_ne hs.2 hc
          have hu' : step (rehost m l c s) = .next (rehost m l c u) := by
            rw [step_rehost m l c (iff_of_false (by omega) hc), hu]
            rfl
          have hturn := turn_of_step hu
          rw [runLoop_succ_of_next hr hu] at h
          rw [runLoop_succ_of_next (s := rehost m l c s) hr hu'] at h'
          exact ih (by rwa [hturn.keeps.1]) (Nat.le_of_succ_le_succ hk) (hs.turn hturn).1 h h'
        · exact absurd (h.symm.trans (runLoop_succ_of_refused hr hu k)) (by simp)
    · obtain rfl := runLoop_rehost_of_ended hr h h'
      exact ⟨List.prefix_rfl, List.prefix_rfl, fun _ => rfl⟩

/-- Settles O42: the second run is the first one's loop under the larger MAX_STEPS, with more turns. -/
theorem guardOnlyTruncatesTheRun : Obligations.GuardOnlyTruncatesTheRun := by
  unfold Obligations.GuardOnlyTruncatesTheRun
  intro s t t' m hm h h'
  obtain ⟨-, hlabels, hcursor⟩ := runToEnd_keeps_host h
  have hfuel : runFuel s ≤ m + 1 := Nat.succ_le_succ hm
  have hloop : runLoop (m + 1) (rehost m s.labels s.cursor (startRun s)) = .next t' := h'
  obtain ⟨htrace, houtput, hend⟩ :=
    runLoop_truncated (s := startRun s) hm hfuel (counted_startRun s) h (runToEnd_ended h).1 hloop
  refine ⟨htrace, houtput, fun hne => (hend hne).trans ?_⟩
  rw [rehost, ← hlabels, ← hcursor]

end Sys2Proof.Machine
end

section
/-! SUPPORT. Proofs of the statements about the host's load surface (R34 to R39): what each command accepts, what it
leaves in the store, and that it keeps the store sound. -/

namespace Sys2Proof.Machine

/-! ### append -/

/-- An opcode with as many operands as its arity asks for makes an instruction. -/
theorem exists_instr_of_operand_length {op : Opcode} {o : Option Int} (h : o.toList.length = op.arity) :
    ∃ i : Instr, i.opcode = op ∧ i.operand = o := by
  cases o with
  | some a => exact exists_instr_of_arity_one h.symm a
  | none =>
    cases op with
    | halt => exact ⟨.halt, rfl, rfl⟩
    | print => exact ⟨.print, rfl, rfl⟩
    | nop => exact ⟨.nop, rfl, rfl⟩
    | load | add | store | sub | jmp | jz => cases h

theorem appendCells_of_le {cells : List Int} {s : State} (h : s.cursor + cells.length ≤ s.config.memSize) :
    appendCells cells s = .ok { placeCells s.cursor cells s with cursor := s.cursor + cells.length } := if_pos h

theorem appendCells_of_not_le {cells : List Int} {s : State} (h : ¬ s.cursor + cells.length ≤ s.config.memSize) :
    appendCells cells s = .error .memoryFull := if_neg h

/-- After its mnemonic is recognized, `append` checks the operand, then lays out the cells (R35). -/
theorem appendInstruction_of_operand_ok {op : Opcode} {o a : Option Int} {s : State}
    (h : appendOperand s.config.wordWidth op o = .ok a) :
    appendInstruction op.mnemonic o s = appendCells (s.config.codes.code op :: a.toList) s := by
  simp only [appendInstruction, ofMnemonic_mnemonic, h]

theorem appendInstruction_of_operand_error {op : Opcode} {o : Option Int} {s : State} {e : LoadError}
    (h : appendOperand s.config.wordWidth op o = .error e) : appendInstruction op.mnemonic o s = .error e := by
  simp only [appendInstruction, ofMnemonic_mnemonic, h]

/-- What an accepted `append` did: it laid out the cells of an instruction, whose operand is a Word, at the cursor. -/
theorem appendInstruction_ok {s t : State} {text : String} {operand : Option Int}
    (h : appendInstruction text operand s = .ok t) :
    ∃ i : Instr, i.opcode.mnemonic = text ∧ i.operand = operand ∧ (∀ v ∈ operand, IsWord s.config.wordWidth v) ∧
      s.cursor + i.opcode.length ≤ s.config.memSize ∧
      t = { placeCells s.cursor (encode s.config.codes i) s with cursor := s.cursor + i.opcode.length } := by
  cases hm : Opcode.ofMnemonic text with
  | none =>
    rw [appendInstruction_of_ofMnemonic_eq_none hm] at h
    cases h
  | some op =>
    obtain rfl := ofMnemonic_eq_some_iff.1 hm
    cases ho : appendOperand s.config.wordWidth op operand with
    | error e =>
      rw [appendInstruction_of_operand_error ho] at h
      cases h
    | ok a =>
      obtain ⟨rfl, hlength, hwords⟩ := appendOperand_ok ho
      obtain ⟨i, rfl, rfl⟩ := exists_instr_of_operand_length hlength
      have hcells : (encode s.config.codes i).length = i.opcode.length := encode_length s.config.codes i
      rw [appendInstruction_of_operand_ok ho] at h
      by_cases hroom : s.cursor + (encode s.config.codes i).length ≤ s.config.memSize
      · rw [← encode, appendCells_of_le hroom, hcells] at h
        rw [hcells] at hroom
        exact ⟨i, rfl, rfl, hwords, hroom, (Except.ok.inj h).symm⟩
      · rw [← encode, appendCells_of_not_le hroom] at h
        cases h

/-- Placed cells leave every address below and above them as it was. -/
theorem readCell_placeCells_of_outside {cells : List Int} {a b : Nat} (h : b < a ∨ a + cells.length ≤ b) (s : State) :
    readCell (placeCells a cells s) b = readCell s b := by
  rw [readCell_placeCells]
  split
  · rw [List.getElem?_eq_none (by omega), Option.getD_none]
  · rfl

/-- Settles O45: the cells laid out are those of the instruction. -/
theorem appendLaysOutTheInstruction : Obligations.AppendLaysOutTheInstruction := by
  unfold Obligations.AppendLaysOutTheInstruction
  intro s t text operand h
  obtain ⟨i, hm, ho, -, hroom, rfl⟩ := appendInstruction_ok h
  refine ⟨i, hm, ho, rfl, hroom, ?_, fun a ha => ?_, fun b hb => ?_, ?_⟩
  · exact readCell_placeCells_opcode s.config.codes i s.cursor s
  · exact readCell_placeCells_operand s.config.codes ha s.cursor s
  · have hcells : (encode s.config.codes i).length = i.opcode.length := encode_length s.config.codes i
    exact readCell_placeCells_of_outside (hcells.symm ▸ hb) s
  · rw [placeCells_eq]

/-! ### append's operand check -/

section
variable {w : Nat} {op : Opcode}

theorem appendOperand_none_of_arity_zero (h : op.arity = 0) : appendOperand w op none = .ok none := by
  simp only [appendOperand, h]

theorem appendOperand_some_of_arity_zero (h : op.arity = 0) (v : Int) :
    appendOperand w op (some v) = .error .unrecognizedCommand := by
  simp only [appendOperand, h]

theorem appendOperand_none_of_arity_one (h : op.arity = 1) : appendOperand w op none = .error .missingOperand := by
  simp only [appendOperand, h]

theorem appendOperand_of_isWord (h : op.arity = 1) {v : Int} (hv : IsWord w v) :
    appendOperand w op (some v) = .ok (some v) := by
  simp only [appendOperand, h, loadWord_of_isWord hv]

theorem appendOperand_of_not_isWord (h : op.arity = 1) {v : Int} (hv : ¬ IsWord w v) :
    appendOperand w op (some v) = .error .unrecognizedCommand := by
  simp only [appendOperand, h, loadWord_of_not_isWord hv]

end

/-- Settles O46: the operand check's five answers, and the fit check after the two that accept. -/
theorem appendRejections : Obligations.AppendRejections := by
  unfold Obligations.AppendRejections
  intro s op v
  refine ⟨fun ha => ?_, fun ha => ?_, fun ha hv hfull => ?_, fun ha hv => ?_, fun ha hfull => ?_, fun ha hv hroom => ?_,
    fun ha hroom => ?_⟩
  · exact appendInstruction_of_operand_error (appendOperand_none_of_arity_one ha)
  · exact appendInstruction_of_operand_error (appendOperand_some_of_arity_zero ha v)
  · rw [appendInstruction_of_operand_ok (appendOperand_of_isWord ha hv)]
    exact appendCells_of_not_le (not_le.2 hfull)
  · exact appendInstruction_of_operand_error (appendOperand_of_not_isWord ha hv)
  · rw [appendInstruction_of_operand_ok (appendOperand_none_of_arity_zero ha)]
    exact appendCells_of_not_le (not_le.2 hfull)
  · rw [appendInstruction_of_operand_ok (appendOperand_of_isWord ha hv)]
    exact ⟨_, appendCells_of_le hroom⟩
  · rw [appendInstruction_of_operand_ok (appendOperand_none_of_arity_zero ha)]
    exact ⟨_, appendCells_of_le hroom⟩

/-! ### write_raw and label -/

theorem writeRaw_of_isWord {s : State} {a v : Int} (h : InRange s a) (hv : IsWord s.config.wordWidth v) :
    writeRaw a v s = .ok (writeCell a.toNat v s) := by
  simp only [writeRaw, cellAddress_of_inRange h, loadWord_of_isWord hv]

theorem writeRaw_of_not_isWord {s : State} {a v : Int} (h : InRange s a) (hv : ¬ IsWord s.config.wordWidth v) :
    writeRaw a v s = .error .unrecognizedCommand := by
  simp only [writeRaw, cellAddress_of_inRange h, loadWord_of_not_isWord hv]

theorem setLabel_of_inRange {s : State} {a : Int} (h : InRange s a) (name : String) :
    setLabel a name s = .ok { s with labels := Labels.set s.labels a.toNat name } := by
  simp only [setLabel, cellAddress_of_inRange h]

theorem setLabel_of_not_inRange {s : State} {a : Int} (h : ¬ InRange s a) (name : String) :
    setLabel a name s = .error .outOfRangeAddress := by
  simp only [setLabel, cellAddress_of_not_inRange h]

/-- Settles O47: the two writes, each with the read rule of its list. -/
theorem rawWriteAndLabel : Obligations.RawWriteAndLabel := by
  unfold Obligations.RawWriteAndLabel
  intro s a v name
  refine ⟨fun h hv => ⟨_, writeRaw_of_isWord h hv, readCell_writeCell_same a.toNat v s, fun b hb => ?_, rfl⟩,
    fun h hv => ⟨_, writeRaw_of_not_isWord h hv⟩, fun h => ⟨_, setLabel_of_inRange h name, ?_, fun b hb => ?_, rfl⟩,
    fun h => ⟨writeRaw_of_not_inRange h v, setLabel_of_not_inRange h name⟩⟩
  · exact readCell_writeCell_of_ne hb v s
  · rw [Labels.find_set, if_pos rfl]
  · rw [Labels.find_set, if_neg hb]

/-! ### load_example -/

/-- The catalog's three names, and no other (R38). -/
theorem exampleCatalog_find_eq_some {c : ExampleCatalog} {name : String} {e : ExampleProgram} :
    ExampleCatalog.find c name = some e ↔ (name, e) ∈ [("suma", c.suma), ("resta", c.resta), ("bucle", c.bucle)] := by
  simp only [List.mem_cons, List.not_mem_nil, Prod.mk.injEq, or_false]
  unfold ExampleCatalog.find
  split
  · next h => simp [h, eq_comm]
  · split
    · next h => simp [h, eq_comm]
    · split
      · next h => simp [h, eq_comm]
      · next h1 h2 h3 => simp [h1, h2, h3]

theorem exampleCatalog_find_eq_none (c : ExampleCatalog) {name : String} (h : name ∉ ["suma", "resta", "bucle"]) :
    ExampleCatalog.find c name = none := by
  refine Option.eq_none_iff_forall_ne_some.2 fun e he => h ?_
  exact List.mem_map_of_mem (f := Prod.fst) (exampleCatalog_find_eq_some.1 he)

/-- What an accepted `load_example` did. -/
theorem loadExample_ok {name : String} {s t : State} (h : loadExample name s = .ok t) :
    ∃ e, ExampleCatalog.find s.config.examples name = some e ∧ e.cells.length ≤ s.config.memSize ∧
      t = placeLabels e.labels (placeCells 0 e.cells (clearStore s)) := by
  cases hf : ExampleCatalog.find s.config.examples name with
  | none =>
    simp only [loadExample, hf] at h
    cases h
  | some e =>
    by_cases hl : e.cells.length ≤ s.config.memSize
    · rw [loadExample_of_find hf hl] at h
      exact ⟨e, rfl, hl, (Except.ok.inj h).symm⟩
    · simp only [loadExample, hf, if_neg hl] at h
      cases h

/-- An example is laid out in an emptied store: nothing but memory, labels and cursor differs. -/
theorem placeExample_eq (e : ExampleProgram) (s : State) :
    placeLabels e.labels (placeCells 0 e.cells (clearStore s)) =
      { s with
        mem := (placeCells 0 e.cells (clearStore s)).mem
        labels := (placeLabels e.labels (placeCells 0 e.cells (clearStore s))).labels
        cursor := 0 } := by
  rw [placeLabels_eq, placeCells_eq]
  rfl

/-- Settles O48: the three names, then the cells and the labels of an emptied store. -/
theorem loadExampleBuildsTheProgram : Obligations.LoadExampleBuildsTheProgram := by
  unfold Obligations.LoadExampleBuildsTheProgram
  refine ⟨fun s name h => ?_, fun s name e he hl => ?_⟩
  · simp only [loadExample, exampleCatalog_find_eq_none s.config.examples h]
  · refine ⟨_, loadExample_of_find (exampleCatalog_find_eq_some.2 he) hl, fun k => ?_, fun a => ?_, ?_⟩
    · rw [placeExample_eq]
      show readCell (placeCells 0 e.cells (clearStore s)) k = e.cells.getD k 0
      rw [readCell_placeCells, if_pos (Nat.zero_le k), Nat.sub_zero, readCell_of_mem_nil (clearStore_mem s),
        List.getD_eq_getElem?_getD]
    · have hlabels : (placeCells 0 e.cells (clearStore s)).labels = [] := by
        rw [placeCells_eq, clearStore_labels]
      rw [find_placeLabels, hlabels, Labels.find_nil, or_iff_right fun h => h rfl]
    · rw [placeExample_eq]
      exact ⟨rfl, rfl, rfl, rfl, rfl, rfl, rfl, rfl, rfl⟩

/-! ### Every load command keeps the store sound -/

theorem StoreInv.clearStore {s : State} (h : StoreInv s) : StoreInv (clearStore s) :=
  storeInv_of_empty h.config_wf rfl rfl rfl

theorem StoreInv.setLabel {s : State} (h : StoreInv s) {a : Nat} (ha : a < s.config.memSize) (name : String) :
    StoreInv { s with labels := Labels.set s.labels a name } :=
  { h with
    labels_wf := Labels.wf_set a name h.labels_wf
    labels_inside := Labels.inside_set h.labels_inside ha }

theorem StoreInv.placeCells {s : State} (h : StoreInv s) {cells : List Int} {a : Nat}
    (hwords : ∀ v ∈ cells, IsWord s.config.wordWidth v) (hroom : a + cells.length ≤ s.config.memSize) :
    StoreInv (placeCells a cells s) := by
  induction cells generalizing a s with
  | nil => exact h
  | cons v rest ih =>
    obtain ⟨hv, hrest⟩ := List.forall_mem_cons.1 hwords
    rw [List.length_cons] at hroom
    exact ih (h.writeCell (by omega) hv) hrest (by rw [writeCell_config]; omega)

theorem StoreInv.placeLabels {s : State} (h : StoreInv s) {labels : List (Nat × String)}
    (hinside : ∀ l ∈ labels, l.1 < s.config.memSize) : StoreInv (placeLabels labels s) := by
  induction labels generalizing s with
  | nil => exact h
  | cons l rest ih =>
    obtain ⟨hl, hrest⟩ := List.forall_mem_cons.1 hinside
    exact ih (h.setLabel hl l.2) hrest

/-- The programs of a well-formed configuration's catalog are well formed (R38). -/
theorem wellFormed_of_find {c : Config} (hc : c.WellFormed) {name : String} {e : ExampleProgram}
    (h : ExampleCatalog.find c.examples name = some e) : e.WellFormed c.wordWidth := by
  obtain ⟨-, -, -, -, -, hsuma, hresta, hbucle⟩ := hc
  have hmem := exampleCatalog_find_eq_some.1 h
  simp only [List.mem_cons, List.not_mem_nil, Prod.mk.injEq, or_false] at hmem
  rcases hmem with ⟨-, rfl⟩ | ⟨-, rfl⟩ | ⟨-, rfl⟩
  · exact hsuma
  · exact hresta
  · exact hbucle

theorem StoreInv.append {s t : State} {text : String} {operand : Option Int} (h : StoreInv s)
    (ht : appendInstruction text operand s = .ok t) : StoreInv t := by
  obtain ⟨i, -, rfl, hwords, hroom, rfl⟩ := appendInstruction_ok ht
  obtain ⟨-, -, -, -, hcodes, -⟩ := h.config_wf
  have hcells : ∀ v ∈ encode s.config.codes i, IsWord s.config.wordWidth v :=
    List.forall_mem_cons.2 ⟨hcodes _ i.opcode.mem_all, fun v hv => hwords v (Option.mem_toList.1 hv)⟩
  have hplaced := h.placeCells (a := s.cursor) hcells (by rw [encode_length]; exact hroom)
  have hconfig : (Machine.placeCells s.cursor (encode s.config.codes i) s).config = s.config := by rw [placeCells_eq]
  exact { hplaced with cursor_le := by rw [hconfig]; exact hroom }

theorem StoreInv.loadExample {s t : State} {name : String} (h : StoreInv s) (ht : loadExample name s = .ok t) :
    StoreInv t := by
  obtain ⟨e, hf, hroom, rfl⟩ := loadExample_ok ht
  obtain ⟨hwords, hinside⟩ := wellFormed_of_find h.config_wf hf
  have hplaced := h.clearStore.placeCells (a := 0) hwords (by rwa [Nat.zero_add])
  refine hplaced.placeLabels fun l hl => ?_
  rw [placeCells_eq, clearStore_config]
  exact (hinside l hl).trans_le hroom

/-- What an accepted load command keeps, and the fields it changes. -/
theorem StoreInv.loadCommand {c : LoadCommand} {s t : State} (h : StoreInv s) (ht : loadCommand c s = .ok t) :
    StoreInv t ∧ t = { s with mem := t.mem, labels := t.labels, cursor := t.cursor } := by
  cases c with
  | append text operand =>
    refine ⟨h.append ht, ?_⟩
    obtain ⟨i, -, -, -, -, rfl⟩ := appendInstruction_ok ht
    rw [placeCells_eq]
  | writeRaw a v =>
    have ht : writeRaw a v s = .ok t := ht
    by_cases ha : InRange s a
    · by_cases hv : IsWord s.config.wordWidth v
      · obtain rfl := Except.ok.inj ((writeRaw_of_isWord ha hv).symm.trans ht)
        exact ⟨h.writeCell (toNat_lt_memSize ha) hv, rfl⟩
      · exact absurd ((writeRaw_of_not_isWord ha hv).symm.trans ht) (by simp)
    · exact absurd ((writeRaw_of_not_inRange ha v).symm.trans ht) (by simp)
  | label a name =>
    have ht : Machine.setLabel a name s = .ok t := ht
    by_cases ha : InRange s a
    · obtain rfl := Except.ok.inj ((setLabel_of_inRange ha name).symm.trans ht)
      exact ⟨h.setLabel (toNat_lt_memSize ha) name, rfl⟩
    · exact absurd ((setLabel_of_not_inRange ha name).symm.trans ht) (by simp)
  | loadExample name =>
    refine ⟨h.loadExample ht, ?_⟩
    obtain ⟨e, -, -, rfl⟩ := loadExample_ok ht
    rw [placeExample_eq]
  | unmatched => cases ht

/-- Settles O49: the load commands, the two clears, and run start. -/
theorem loadingKeepsTheStoreSound : Obligations.LoadingKeepsTheStoreSound :=
  ⟨fun _ _ _ h ht => h.loadCommand ht, fun _ h => ⟨h.clearStore, h.postRunClear⟩, fun _ h => h.runInv_startRun⟩

/-! ### clear and run start -/

/-- Settles O44: a cleared store lists no cell and no label. -/
theorem clearEmptiesTheStore : Obligations.ClearEmptiesTheStore := by
  unfold Obligations.ClearEmptiesTheStore
  exact fun s => ⟨fun a => ⟨readCell_of_mem_nil (clearStore_mem s) a, find_of_labels_nil (clearStore_labels s) a⟩, rfl⟩

/-- Settles O2: the fields of `startRun`, one by one. -/
theorem runStartSetsTheRegisters : Obligations.RunStartSetsTheRegisters := by
  unfold Obligations.RunStartSetsTheRegisters
  exact ⟨fun s => ⟨startRun s, rfl, startRun_runState s, startRun_pc s, startRun_acc s, startRun_z s,
    startRun_stepCount s, startRun_output s, startRun_trace s, startRun_config s, startRun_mem s, startRun_labels s,
    startRun_cursor s⟩, rfl, rfl, rfl, rfl⟩

end Sys2Proof.Machine
end

section
/-! SUPPORT. Proofs of the statements about the single instructions: effect, frame, encoding and exceptions (R63 to
R74). -/

namespace Sys2Proof.Machine

/-! ### What the instructions share -/

/-- An instruction that passed its operand check answers its effect, with the record and the count. -/
theorem exec_eq_withRecord {i : Instr} {s u : State} (hw : i.WellFormed s.config.memSize) (h : Effect i s u) :
    ∃ d, exec i s = .next (withRecord s.pc i.opcode (i.operand.map Int.toNat) d u) :=
  ⟨_, exec_of_effect hw h⟩

/-- An opcode of arity 1 in the last cell has no operand cell (R53). -/
theorem step_in_last_cell {s : State} (op : Opcode) (ha : op.arity = 1) (hs : s.Ready) (hinj : s.config.codes.Injective)
    (hlast : s.pc + 1 = s.config.memSize) (hcode : readCell s s.pc = s.config.codes.code op) :
    step s = .next (withAbort .operandCell (s.pc + 1) s) := by
  have hpc : InRange s s.pc := ⟨by omega, by omega⟩
  have hcell : ¬ InRange s (s.pc + 1) := fun h => absurd h.2 (by omega)
  exact step_of_operandCell_out hs hinj hpc hcell hcode ha

/-! ### Data transfer -/

/-- Settles O12. -/
theorem loadEffect : Obligations.LoadEffect := by
  unfold Obligations.LoadEffect
  refine fun s a => ⟨rfl, fun h => ?_, fun h => exec_of_not_inRange rfl h, step_in_last_cell .load rfl⟩
  exact exec_eq_withRecord (wellFormed_of_inRange rfl h) (.load a s)

/-- Settles O13: the new memory is the old one with the cell written. -/
theorem storeEffect : Obligations.StoreEffect := by
  unfold Obligations.StoreEffect
  refine fun s a => ⟨rfl, fun h => ?_, fun h => exec_of_not_inRange rfl h, step_in_last_cell .store rfl⟩
  obtain ⟨d, hd⟩ := exec_eq_withRecord (wellFormed_of_inRange rfl h) (.store a s)
  exact ⟨d, Memory.write s.mem a.toNat s.acc, hd, readCell_writeCell_same a.toNat s.acc s,
    fun b hb => readCell_writeCell_of_ne hb s.acc s⟩

/-! ### Arithmetic -/

/-- ADD with a checked operand. -/
theorem exec_add_of_inRange {s : State} {a : Int} (h : InRange s a) :
    exec (.add a) s = finishArithmetic .add a.toNat (narrow s.config (s.acc + readCell s a.toNat)) s :=
  withOperand_of_inRange _ h

/-- SUB with a checked operand. -/
theorem exec_sub_of_inRange {s : State} {a : Int} (h : InRange s a) :
    exec (.sub a) s = finishArithmetic .sub a.toNat (narrow s.config (s.acc - readCell s a.toNat)) s :=
  withOperand_of_inRange _ h

/-- The end of ADD and SUB when the alu answers `v`: ACC, its zero test, PC past the instruction, record and count. -/
theorem finishArithmetic_eq_withRecord (s : State) {op : Opcode} (hop : op.arity = 1) (n : Nat) (v : Int) :
    ∃ d, finishArithmetic op n (some v) s =
      .next (withRecord s.pc op (some n) d { s with acc := v, z := decide (v = 0), pc := s.pc + 2 }) := by
  have hadvance : advance op (writeAcc v s) = { s with acc := v, z := decide (v = 0), pc := s.pc + 2 } := by
    rw [advance, Opcode.length, hop]
    rfl
  rw [finishArithmetic_some, hadvance]
  exact ⟨_, congrArg Host.Outcome.next (retire_eq_withRecord op (some n) s _)⟩

/-- An instruction that ends in the alu's answer to the exact result `x`: wrapped under policy wrap, as it is where it
is a Word, refused under policy fault where it is none (R65). -/
theorem arithmetic_effect {i : Instr} {s : State} {a x : Int} (ho : i.operand = some a)
    (he : InRange s a → exec i s = finishArithmetic i.opcode a.toNat (narrow s.config x) s) :
    (InRange s a → s.config.overflowPolicy = .wrap → ∃ d v, exec i s = .next (withRecord s.pc i.opcode (some a.toNat) d
        { s with acc := v, z := decide (v = 0), pc := s.pc + 2 }) ∧ v = wrapWord s.config.wordWidth x) ∧
    (InRange s a → 1 ≤ s.config.wordWidth → IsWord s.config.wordWidth x → ∃ d, exec i s = .next (withRecord s.pc i.opcode
        (some a.toNat) d { s with acc := x, z := decide (x = 0), pc := s.pc + 2 })) ∧
    (InRange s a → s.config.overflowPolicy = .fault → ¬ IsWord s.config.wordWidth x →
      exec i s = .refused .arithmeticOverflow) ∧
    (¬ InRange s a → exec i s = .next (withAbort .operandAddress a s)) := by
  have harity : i.opcode.arity = 1 := by rw [← i.operand_length, ho, Option.toList_some, List.length_singleton]
  refine ⟨fun h hp => ?_, fun h hw hv => ?_, fun h hp hv => ?_, fun h => exec_of_not_inRange ho h⟩
  · rw [he h, narrow_of_wrap hp]
    obtain ⟨d, hd⟩ := finishArithmetic_eq_withRecord s harity a.toNat (wrapWord s.config.wordWidth x)
    exact ⟨d, _, hd, rfl⟩
  · rw [he h, narrow_of_isWord hw hv]
    exact finishArithmetic_eq_withRecord s harity a.toNat x
  · rw [he h, narrow_of_not_isWord hp hv, finishArithmetic]

/-- Settles O14: the exact result is the sum. -/
theorem addEffect : Obligations.AddEffect := fun _ _ => arithmetic_effect rfl exec_add_of_inRange

/-- Settles O15: the exact result is the difference. -/
theorem subEffect : Obligations.SubEffect := fun _ _ => arithmetic_effect rfl exec_sub_of_inRange

/-! ### Control transfer -/

/-- Settles O17. -/
theorem jmpEffect : Obligations.JmpEffect := by
  unfold Obligations.JmpEffect
  refine fun s a => ⟨fun h => ?_, fun h => exec_of_not_inRange rfl h⟩
  exact exec_eq_withRecord (wellFormed_of_inRange rfl h) (.jmp a s)

/-- Settles O18. -/
theorem jzEffect : Obligations.JzEffect := by
  unfold Obligations.JzEffect
  refine fun s a => ⟨fun h hz => ?_, fun h hz => ?_, fun h => exec_of_not_inRange rfl h⟩
  · exact exec_eq_withRecord (wellFormed_of_inRange rfl h) (.jzTaken a s hz)
  · exact exec_eq_withRecord (wellFormed_of_inRange rfl h) (.jzNot a s hz)

/-! ### System -/

/-- Settles O19. -/
theorem haltEffect : Obligations.HaltEffect := fun s =>
  exec_eq_withRecord (wellFormed_of_no_operand rfl) (.halt s)

/-- Settles O20. -/
theorem printEffect : Obligations.PrintEffect := fun s =>
  exec_eq_withRecord (wellFormed_of_no_operand rfl) (.print s)

/-- Settles O21: a NOP in the last cell leaves PC at MEM_SIZE, where the next fetch is out of range. -/
theorem nopEffect : Obligations.NopEffect := by
  unfold Obligations.NopEffect
  refine ⟨rfl, fun s => ?_⟩
  obtain ⟨d, hd⟩ := exec_eq_withRecord (wellFormed_of_no_operand rfl) (.nop s)
  refine ⟨d, hd, fun t ht hlast hready => ?_⟩
  obtain rfl := Host.Outcome.next.inj (hd.symm.trans ht)
  have hout := step_of_fetch_out hready fun h => absurd h.2 (by
    show ¬ ((s.pc + 1 : Nat) : Int) < s.config.memSize
    omega)
  rw [hout, ← hlast]
  rfl

end Sys2Proof.Machine
end
